-- ==== Sys2Proof/Word.lean ====
section
/-! DEFINITION. The word types of the block: register words, Q15 patterns and bytes (00_scope.md R7, R9). -/

namespace Sys2Proof

/-- A register-interface word, `W_REG` = `W_ACC` = `ADDR_W` = 32 bits (R7). -/
abbrev Word := BitVec 32

/-- A Q15 pattern, `W_Q15` = 16 bits (R7). Its integer is `BitVec.toInt`, the `sint` of R9. -/
abbrev Half := BitVec 16

/-- One byte of DMEM. -/
abbrev Byte := BitVec 8

end Sys2Proof
end

