-- ==== Sys2Proof/Config.lean ====
section
/-! DEFINITION. What an implementation fixes (00_scope.md R7) and the free values of 93_implementation_defined.md. -/

namespace Sys2Proof

/-- The OPEN parameters of R7 that a rule reads. A state carries them (log 5), so that a statement over all
states is a statement for every parameter value. -/
structure Params where
  /-- `DMEM_SIZE`, bytes of DMEM; `0 <= DMEM_SIZE <= 2^32`. -/
  dmemSize : Nat
  /-- `LANES`, elements of one AXPY.V lane step; `LANES >= 1`. -/
  lanes : Nat
  /-- `REG_BASE`, the platform address of register offset 0 (10_state.md R20). No result depends on it: the block sees
  only offsets. -/
  regBase : Nat
deriving DecidableEq, Repr

/-- The example values of 95_test_vectors.md (`DMEM_SIZE = 0x400`; `LANES = 4` is one of its rows), and 0 for `REG_BASE`,
of which the spec has no example. DESIGN CHOICE (log 5), unsafe: only `State.reset` takes them. -/
def Params.illustrative : Params := { dmemSize := 0x400, lanes := 4, regBase := 0 }

/-- FREE VALUE (log 2, safe): the byte an address of DMEM holds at power-up (R202, U5). -/
opaque Config.powerUpByte : Nat → Byte

/-- FREE VALUE (log 9, safe): whether a host read sees element `i` of a running command's `y` final (true) or
as at acceptance (false) (R73, U2). The arguments are the draw counter and `i`. -/
opaque Config.busyReadSeesFinal : Nat → Nat → Bool

/-- FREE VALUE (log 9, safe): whether element `i` of a command abandoned by reset is left final (true) or as at
acceptance (false) (R201, U4). The arguments are the draw counter and `i`. -/
opaque Config.abandonedIsFinal : Nat → Nat → Bool

/-- FREE VALUE (logs 8 and 9, safe): element `i` of `y` once a host write has broken the contract (R74, U3).
The arguments are the draw counter and `i`. -/
opaque Config.brokenElement : Nat → Nat → Half

end Sys2Proof
end

