-- ==== Sys2Proof/Syntax.lean ====
section
/-! DEFINITION. The commands (30_encoding.md R93), the command-word format C32 (R90), the register map's names
(10_state.md R21), the rejection causes (60_exceptions.md R171) and what the outside world may do (R180). -/

namespace Sys2Proof

/-- The five commands of R93. A command carries no operand (R92). -/
inductive Instr where
  | nop
  | sat
  | axpy1
  | axpyB
  | axpyV
deriving DecidableEq, Repr

/-- The two fields of the one format C32 (R90). -/
structure C32 where
  /-- OP, bits 3:0. -/
  op : BitVec 4
  /-- RSVD, bits 31:4. -/
  rsvd : BitVec 28
deriving DecidableEq, Repr

/-- The registers of the map (R21); `reserved` is any of the offsets 0x30 to 0xFC. -/
inductive Reg where
  | cmd
  | status
  | ie
  | alpha
  | len
  | abase
  | bbase
  | ybase
  | opa
  | opb
  | wide
  | result
  | reserved
deriving DecidableEq, Repr

/-- The causes of a rejection (R171). -/
inductive Cause where
  | illegal
  | misaligned
  | range
  | overlap
deriving DecidableEq, Repr

/-- One action of the outside world (R180, R200). -/
inductive HostAction where
  /-- A register-interface read of `width` bits at byte offset `off`; `HostRead(off)` when `width = 32` (R20). -/
  | regRead (off width : Nat)
  /-- A register-interface write of `width` bits at byte offset `off`; `HostWrite(off, v)` when `width = 32`. -/
  | regWrite (off width : Nat) (v : Word)
  /-- The host's own read of `count` consecutive DMEM bytes from `addr`. -/
  | dmemRead (addr count : Nat)
  /-- The host's own write of consecutive DMEM bytes from `addr`. -/
  | dmemWrite (addr : Nat) (bytes : List Byte)
  /-- The input `rst` goes active: reset is applied (R200). -/
  | rstAssert
  /-- The input `rst` is released. -/
  | rstRelease
deriving DecidableEq, Repr

/-- Which agent of R180 moves next: the host, with an action, or the sequencer. -/
inductive Slot where
  | host (a : HostAction)
  | sequencer
deriving DecidableEq, Repr

end Sys2Proof
end

