-- ==== Sys2Proof/WellFormed.lean ====
section
/-! DEFINITION. Well-formedness of command words, host actions and parameters. An `Instr` has no field, so every
`Instr` is well formed. -/

namespace Sys2Proof

/-- A legal command word: RSVD = 0 and OP one of 0x0 to 0x4 (R93). -/
def C32.wf (c : C32) : Bool := c.rsvd == 0#28 && c.op.toNat ≤ 4

/-- The parameter constraints of R7. -/
def Params.wf (p : Params) : Bool := p.dmemSize ≤ 2 ^ 32 && 1 ≤ p.lanes

/-- The host actions the interface has: 32-bit aligned register transactions at offsets 0x00 to 0xFC (R20), and
DMEM accesses to addresses that exist (R60). -/
def HostAction.wf (p : Params) : HostAction → Bool
  | .regRead off width => off % 4 == 0 && off ≤ 0xFC && width == 32
  | .regWrite off width _ => off % 4 == 0 && off ≤ 0xFC && width == 32
  | .dmemRead addr count => addr + count ≤ p.dmemSize
  | .dmemWrite addr bytes => addr + bytes.length ≤ p.dmemSize
  | .rstAssert => true
  | .rstRelease => true

end Sys2Proof
end

