-- ==== Sys2Proof/Decode.lean ====
section
/-! DEFINITION. The decoder, total on every 32-bit command word (30_encoding.md R94), and the encoder (R93). -/

namespace Sys2Proof

/-- Why a word is ILLEGAL (R95). Both kinds are rejected with cause ILLEGAL. -/
inductive IllegalWord where
  /-- RSVD (bits 31:4) is not zero, whatever OP is. -/
  | reservedBits
  /-- RSVD is zero and OP is one of 0x5 to 0xF. -/
  | reservedOpcode
deriving DecidableEq, Repr

/-- The fields of a command word (R90). -/
def c32Of (w : Word) : C32 := { op := w.extractLsb' 0 4, rsvd := w.extractLsb' 4 28 }

/-- The case analysis of R94 on the fields. -/
def decodeC32 (c : C32) : Except IllegalWord Instr :=
  if c.rsvd ≠ 0#28 then .error .reservedBits
  else match c.op.toNat with
    | 0 => .ok .nop
    | 1 => .ok .sat
    | 2 => .ok .axpy1
    | 3 => .ok .axpyB
    | 4 => .ok .axpyV
    | _ => .error .reservedOpcode

/-- `decode(w)` of R94. -/
def decode (w : Word) : Except IllegalWord Instr := decodeC32 (c32Of w)

/-- The OP value of each command (the opcode map, R93). -/
def opcodeOf : Instr → BitVec 4
  | .nop => 0x0
  | .sat => 0x1
  | .axpy1 => 0x2
  | .axpyB => 0x3
  | .axpyV => 0x4

/-- The word with the given fields: RSVD above OP (R90). -/
def wordOf (c : C32) : Word := c.rsvd ++ c.op

/-- The one spelling of each command: its OP value with bits 31:4 zero (R93). -/
def encode (i : Instr) : Word := wordOf { op := opcodeOf i, rsvd := 0 }

/-- The command word whose low `nbits` bits are those of `w` and whose other bits are zero. -/
def tableWord (nbits w : Nat) : Word := BitVec.ofNat 32 (w % 2 ^ nbits)

/-- What the decoder reads from a table row's bits; `none` where it rejects. -/
def decodeTableWord (nbits w : Nat) : Option Instr :=
  match decode (tableWord nbits w) with
  | .ok i => some i
  | .error _ => none

end Sys2Proof
end

