-- ==== Sys2Proof/Machine/State.lean ====
section
/-! DEFINITION. The block's whole state (10_state.md R45), the input pin `rst`, the model's own fields, how a step
may stop, and the state after reset. -/

namespace Sys2Proof.Machine

/-- DMEM as the bytes written so far, by address, addresses strictly rising. An address that is not listed has not
been written since power-up (R202, log 2). -/
abbrev Memory := List Host.Cell

/-- `L.op` (R41). -/
inductive VecOp where
  | axpyB
  | axpyV
deriving DecidableEq, Repr

/-- The latched command record `L` (R41). -/
structure Latch where
  op : VecOp
  alpha : Half
  n : Word
  abase : Word
  bbase : Word
  ybase : Word
deriving DecidableEq, Repr

/-- The fields of STATUS that hold state (R24). -/
structure Status where
  busy : Bool
  done : Bool
  err : Bool
  drop : Bool
  ecause : BitVec 4
deriving DecidableEq, Repr

/-- The fields of IE (R26). -/
structure IntEnable where
  doneIe : Bool
  errIe : Bool
deriving DecidableEq, Repr

/-- The eight operand registers (R34); ALPHA, OPA and OPB hold bits 15:0 only (R27, R30). -/
structure OperandRegs where
  alpha : Half
  len : Word
  abase : Word
  bbase : Word
  ybase : Word
  opa : Half
  opb : Half
  wide : Word
deriving DecidableEq, Repr

/-- The state: the table of R45, then the level of `rst` (R200), then the model's own fields. -/
structure State where
  /-- STATUS (R24). -/
  status : Status
  /-- IE (R26). -/
  ie : IntEnable
  /-- ALPHA, LEN, ABASE, BBASE, YBASE, OPA, OPB, WIDE (R27 to R31). -/
  regs : OperandRegs
  /-- RESULT (R32). -/
  result : Word
  /-- `L` (R41). -/
  latch : Latch
  /-- `idx` (R42). -/
  idx : Nat
  /-- DMEM (R60). -/
  mem : Memory
  /-- Whether `rst` is held (R200, log 4). -/
  rstHeld : Bool
  /-- The OPEN parameters (R7, log 5); no step changes them. -/
  params : Params
  /-- MODEL'S OWN: the `D0` of R146, DMEM when the running command was accepted; read only while BUSY (log 7). -/
  d0 : Memory
  /-- MODEL'S OWN: a host DMEM write has fallen in the running command's ranges (R74); read only while BUSY (log 8). -/
  tainted : Bool
  /-- MODEL'S OWN: how many times free values have been drawn (log 9). -/
  draws : Nat
  /-- MODEL'S OWN: who moves next, oldest first (R180, log 3). -/
  inputs : List Slot
  /-- MODEL'S OWN: what the last `HostRead` returned (R20, log 6). -/
  readData : Word
  /-- MODEL'S OWN: what the last host DMEM read returned (R73, log 6). -/
  dmemData : List Byte
deriving DecidableEq, Repr

/-- How a step can stop with a fault. -/
inductive Fault where
  /-- Raised by a host DMEM access, or (only in states no run reaches) by a sequencer step, at an address at or
  above `DMEM_SIZE`, which does not exist (R60). Safe: the model stops. -/
  | dmemAddressAbsent
deriving DecidableEq, Repr

/-- How a step can be refused. -/
inductive Refusal where
  /-- Raised by an arm of `exec` for an instruction without a meaning yet; no arm raises it now. Safe. -/
  | notModelled (mnemonic : String)
  /-- Raised by a register access that is no 32-bit aligned transaction at offsets 0x00 to 0xFC (R20, U9: "A model
  refuses it"). Safe. -/
  | outsideRegisterInterface
  /-- Raised by a register transaction or a host DMEM access while `rst` is held (R200, U10: "a model refuses it"; the
  reset row of 70_reset_and_hazards.md R211 lets the host touch nothing meanwhile; log 4). Safe. -/
  | hostAccessDuringReset
deriving DecidableEq, Repr

/-- STATUS after reset (R45). -/
def Status.reset : Status := { busy := false, done := false, err := false, drop := false, ecause := 0 }

/-- IE after reset (R45). -/
def IntEnable.reset : IntEnable := { doneIe := false, errIe := false }

/-- The operand registers after reset (R45). -/
def OperandRegs.reset : OperandRegs :=
  { alpha := 0, len := 0, abase := 0, bbase := 0, ybase := 0, opa := 0, opb := 0, wide := 0 }

/-- `L` after reset: unspecified and unread (R41, R45). DESIGN CHOICE (log 1). -/
def Latch.reset : Latch := { op := .axpyB, alpha := 0, n := 0, abase := 0, bbase := 0, ybase := 0 }

/-- The block with parameters `p` right after power-on reset: R45 for the spec's state; `rst` released; DMEM as at
power-up, nothing listed (R202). -/
def State.resetWith (p : Params) : State :=
  { status := Status.reset, ie := IntEnable.reset, regs := OperandRegs.reset, result := 0
    latch := Latch.reset, idx := 0, mem := [], rstHeld := false, params := p
    d0 := [], tainted := false, draws := 0, inputs := [], readData := 0, dmemData := [] }

/-- The machine right after reset, with the illustrative parameters (log 5). -/
def State.reset : State := State.resetWith Params.illustrative

end Sys2Proof.Machine
end

