-- ==== Sys2Proof/Machine/Arith.lean ====
section
/-! DEFINITION. The arithmetic: the clamp and its unit (41_saturation.md), the element function and its unit
(42_axpy_kernel.md). -/

namespace Sys2Proof.Machine

/-- `q15_sat(v)` (R130). -/
def q15Sat (v : Int) : Int := if v > 32767 then 32767 else if v < -32768 then -32768 else v

/-- `asr(v, s) = floor(v / 2^s)` (00_scope.md R10); `Int` division by a positive number rounds toward negative
infinity. -/
def asr (v : Int) (s : Nat) : Int := v / 2 ^ s

/-- The unit `q15_saturation_clamp` (R131): `bits16(q15_sat(sint(v)))`. -/
def q15SaturationClamp (v : Word) : Half := BitVec.ofInt 16 (q15Sat v.toInt)

/-- `axpy_elem(a, b, alpha)` on integers: exact product, floor shift, exact sum, one saturation (R140, R142). -/
def axpyElem (a b alpha : Int) : Int :=
  let product := alpha * b
  let scaled := asr product 15
  let sum := a + scaled
  q15Sat sum

/-- The unit `axpy_elem` with its 32-bit internal signals (R144). -/
def axpyElemUnit (a b alpha : Half) : Half :=
  let product : Word := BitVec.ofInt 32 (alpha.toInt * b.toInt)
  let scaled : Word := (product.extractLsb' 15 17).signExtend 32
  let sum : Word := BitVec.ofInt 32 ((a.signExtend 32).toInt + scaled.toInt)
  q15SaturationClamp sum

end Sys2Proof.Machine
end

