-- ==== Sys2Proof/Machine/Flags.lean ====
section
/-! DEFINITION. The flags (10_state.md R35): the STATUS and IE words as the host reads them, the cause codes, and
the interrupt output. -/

namespace Sys2Proof.Machine

/-- The ECAUSE code of a cause (60_exceptions.md R171). -/
def causeCode : Cause → BitVec 4
  | .illegal => 1
  | .misaligned => 2
  | .range => 3
  | .overlap => 4

/-- `zext32(ECAUSE : DROP : ERR : DONE : BUSY)` (R24). -/
def statusWord (st : Status) : Word :=
  (st.ecause ++ BitVec.ofBool st.drop ++ BitVec.ofBool st.err ++ BitVec.ofBool st.done
    ++ BitVec.ofBool st.busy).setWidth 32

/-- `zext32(ERR_IE : DONE_IE)` (R26). -/
def ieWord (ie : IntEnable) : Word := (BitVec.ofBool ie.errIe ++ BitVec.ofBool ie.doneIe).setWidth 32

/-- `HostWrite(0x08, v)` on IE's fields (R26). -/
def ieOfWord (v : Word) : IntEnable := { doneIe := v.getLsbD 0, errIe := v.getLsbD 1 }

/-- `HostWrite(0x04, v)` on STATUS's fields: write one to clear; clearing ERR clears ECAUSE (R25). This is the
host's acknowledgement, the only return from a rejection (R178). -/
def statusClear (v : Word) (st : Status) : Status :=
  { busy := st.busy
    done := st.done && !v.getLsbD 1
    err := st.err && !v.getLsbD 2
    drop := st.drop && !v.getLsbD 3
    ecause := if v.getLsbD 2 then 0 else st.ecause }

/-- The level output `irq` (R36). -/
def irq (s : State) : Bool :=
  (s.status.done && s.ie.doneIe) || ((s.status.err || s.status.drop) && s.ie.errIe)

end Sys2Proof.Machine
end

