-- ==== Sys2Proof/Machine/Ops.lean ====
section
/-! DEFINITION. The named operations over memory and registers, and the shared parts of acceptance: dropping a
command, clearing for acceptance, rejecting (the block's one exception) and acknowledging. -/

namespace Sys2Proof.Machine

/-! ### DMEM -/

/-- The canonical form: addresses strictly rising. What an unlisted address reads as is a free value, which no
listed byte can be compared with, so every written byte stays listed (log 2). -/
abbrev Memory.wf (m : Memory) : Prop := m.Pairwise (fun c d => c.1 < d.1)

/-- The byte written last at an address, if any. -/
def lookup : Memory → Nat → Option Byte
  | [], _ => none
  | (b, v) :: m, a => if a = b then some v else lookup m a

/-- The byte DMEM holds at an address: the last one written, else the power-up byte (R202). -/
def readByte (m : Memory) (a : Nat) : Byte := (lookup m a).getD (Config.powerUpByte a)

/-- Writes one byte, in the canonical form. -/
def writeByte : Memory → Nat → Byte → Memory
  | [], a, v => [(a, v)]
  | (b, w) :: m, a, v =>
    if a < b then (a, v) :: (b, w) :: m
    else if a = b then (a, v) :: m
    else (b, w) :: writeByte m a v

/-- Writes consecutive bytes from an address upward. -/
def writeBytes : Memory → Nat → List Byte → Memory
  | m, _, [] => m
  | m, a, v :: vs => writeBytes (writeByte m a v) (a + 1) vs

/-- `MemRead(addr, 2)`: little-endian (20_memory.md R62). -/
def read16 (m : Memory) (a : Nat) : Half := readByte m (a + 1) ++ readByte m a

/-- `MemWrite(addr, 2, v)`: little-endian (R62). -/
def write16 (m : Memory) (a : Nat) (v : Half) : Memory :=
  writeByte (writeByte m a (v.extractLsb' 0 8)) (a + 1) (v.extractLsb' 8 8)

/-- The address of element `i` of the vector at `base` (R63). -/
def elemAddr (base : Word) (i : Nat) : Nat := base.toNat + 2 * i

/-- The pattern of element `i` of the vector at `base` (R63). -/
def elem16 (m : Memory) (base : Word) (i : Nat) : Half := read16 m (elemAddr base i)

/-- Writes the elements of `order`, one after the other, element `i` with the pattern `f i` (R63). -/
def writeElems (base : Word) (f : Nat → Half) (order : List Nat) (m : Memory) : Memory :=
  order.foldl (fun m i => write16 m (elemAddr base i) (f i)) m

/-- Whether an address lies in the range `[base, base + 2*n)` of a vector. -/
def inVector (base : Word) (n a : Nat) : Bool := base.toNat ≤ a && a < base.toNat + 2 * n

/-- Whether the first `n` elements of a vector lie inside DMEM, on unbounded integers (R65). -/
def vectorInDmem (p : Params) (base : Word) (n : Nat) : Bool := base.toNat + 2 * n ≤ p.dmemSize

/-! ### The register map -/

/-- The platform address of the register at an offset: `REG_BASE + off` (00_scope.md R7, R20). -/
def registerAddress (p : Params) (off : Nat) : Nat := p.regBase + off

/-- The offset at which a platform address reaches the 256-byte register space (R44); none where it does not. -/
def registerOffset (p : Params) (addr : Nat) : Option Nat :=
  if p.regBase ≤ addr ∧ addr < p.regBase + 0x100 then some (addr - p.regBase) else none

/-- The register a transaction addresses (R21); none where the access is outside the interface (R20). -/
def regAt (off width : Nat) : Option Reg :=
  if off % 4 ≠ 0 ∨ 0xFC < off ∨ width ≠ 32 then none
  else match off with
    | 0x00 => some .cmd
    | 0x04 => some .status
    | 0x08 => some .ie
    | 0x0C => some .alpha
    | 0x10 => some .len
    | 0x14 => some .abase
    | 0x18 => some .bbase
    | 0x1C => some .ybase
    | 0x20 => some .opa
    | 0x24 => some .opb
    | 0x28 => some .wide
    | 0x2C => some .result
    | _ => some .reserved

/-- What `HostRead` returns for a register (R23, R24, R26 to R33). -/
def readReg (s : State) : Reg → Word
  | .cmd => 0
  | .status => statusWord s.status
  | .ie => ieWord s.ie
  | .alpha => s.regs.alpha.setWidth 32
  | .len => s.regs.len
  | .abase => s.regs.abase
  | .bbase => s.regs.bbase
  | .ybase => s.regs.ybase
  | .opa => s.regs.opa.setWidth 32
  | .opb => s.regs.opb.setWidth 32
  | .wide => s.regs.wide
  | .result => s.result
  | .reserved => 0

/-- What `HostWrite` stores into a register other than CMD (R25 to R33). A write to CMD stores nothing (R23): what it
does is the command's. -/
def writeReg (v : Word) (s : State) : Reg → State
  | .cmd => s
  | .status => { s with status := statusClear v s.status }
  | .ie => { s with ie := ieOfWord v }
  | .alpha => { s with regs := { s.regs with alpha := v.setWidth 16 } }
  | .len => { s with regs := { s.regs with len := v } }
  | .abase => { s with regs := { s.regs with abase := v } }
  | .bbase => { s with regs := { s.regs with bbase := v } }
  | .ybase => { s with regs := { s.regs with ybase := v } }
  | .opa => { s with regs := { s.regs with opa := v.setWidth 16 } }
  | .opb => { s with regs := { s.regs with opb := v.setWidth 16 } }
  | .wide => { s with regs := { s.regs with wide := v } }
  | .result => s
  | .reserved => s

/-! ### Acceptance, rejection and completion -/

/-- `DROP <- 1`: a command word that arrives while BUSY is discarded (40_command_flow.md R111). -/
def dropCommand (s : State) : State := { s with status := { s.status with drop := true } }

/-- `DONE <- 0; ERR <- 0; ECAUSE <- 0`, the first line of acceptance (R110). -/
def clearForAcceptance (s : State) : State :=
  { s with status := { s.status with done := false, err := false, ecause := 0 } }

/-- `raise Reject(cause)`: the block's one exception, recorded in STATUS; nothing is saved and nothing else changes
(60_exceptions.md R172, R177). -/
def reject (c : Cause) (s : State) : State :=
  { s with status := { s.status with err := true, ecause := causeCode c } }

/-- `DONE <- 1` of a command that completes inside its acceptance (R114, R115). -/
def setDone (s : State) : State := { s with status := { s.status with done := true } }

/-- `x[RESULT] <- sext32(r)` (10_state.md R32). -/
def writeResult (r : Half) (s : State) : State := { s with result := r.signExtend 32 }

/-- A legal command word presented to the sequencer: dropped while BUSY (R111); else acceptance clears the
command's flags and the command's own part `body` runs, in one step (R110). -/
def present (body : State → State) (s : State) : Host.Outcome State Fault Refusal :=
  if s.status.busy then .next (dropCommand s) else .next (body (clearForAcceptance s))

end Sys2Proof.Machine
end

