-- ==== Sys2Proof/Machine/Operands.lean ====
section
/-! DEFINITION. How the commands assemble their operands (30_encoding.md R92) and vector elements (20_memory.md R63). -/

namespace Sys2Proof.Machine

/-- AXPY1's `a`: `sint(x[OPA][15:0])` (R92). -/
def operandA (s : State) : Int := s.regs.opa.toInt

/-- AXPY1's `b`: `sint(x[OPB][15:0])` (R92). -/
def operandB (s : State) : Int := s.regs.opb.toInt

/-- `alpha`: `sint(x[ALPHA][15:0])` (R92). -/
def operandAlpha (s : State) : Int := s.regs.alpha.toInt

/-- The vector length register's value `n`: `uint(x[LEN])` (R92). -/
def operandLen (s : State) : Nat := s.regs.len.toNat

/-- `elem(base, i)`, an integer in `[-32768, 32767]` (R63). -/
def elem (m : Memory) (base : Word) (i : Nat) : Int := (elem16 m base i).toInt

/-- The pattern of `y[i]` that a vector command with record `l` computes from the memory `m` (R150, R152). -/
def elemResult (m : Memory) (l : Latch) (i : Nat) : Half :=
  BitVec.ofInt 16 (axpyElem (elem m l.abase i) (elem m l.bbase i) l.alpha.toInt)

end Sys2Proof.Machine
end

