-- ==== Sys2Proof/Machine/Axpy.lean ====
section
/-! DEFINITION. The AXPY commands: AXPY1 (42_axpy_kernel.md R145), and the acceptance of AXPY.B and AXPY.V
(R149, R151): validation, latching and start (40_command_flow.md R112, R113, R115). -/

namespace Sys2Proof.Machine

/-- AXPY1: `RESULT <- sext32(bits16(axpy_elem(OPA, OPB, ALPHA)))`, then `DONE <- 1` (R145, R114). -/
def execAxpy1 (s : State) : Host.Outcome State Fault Refusal :=
  present (fun t =>
    setDone (writeResult (BitVec.ofInt 16 (axpyElem (operandA t) (operandB t) (operandAlpha t))) t)) s

/-- `partial_overlap(p, q, n)` (R112). -/
def partialOverlap (p q n : Nat) : Bool := p ≠ q && p < q + 2 * n && q < p + 2 * n

/-- `validate(n, ab, bb, yb)` on unbounded integers: the first failing check's cause, or none (R112). -/
def validate (p : Params) (n ab bb yb : Nat) : Option Cause :=
  if ab % 2 ≠ 0 ∨ bb % 2 ≠ 0 ∨ yb % 2 ≠ 0 then some .misaligned
  else if ab + 2 * n > p.dmemSize ∨ bb + 2 * n > p.dmemSize ∨ yb + 2 * n > p.dmemSize then some .range
  else if partialOverlap yb ab n ∨ partialOverlap yb bb n then some .overlap
  else none

/-- `latch(c)` (R113). -/
def latchOperands (op : VecOp) (s : State) : State :=
  { s with latch := { op := op, alpha := s.regs.alpha, n := s.regs.len, abase := s.regs.abase
                      bbase := s.regs.bbase, ybase := s.regs.ybase } }

/-- `start()` (R115). An empty vector completes at once; any other starts the sequencer. The model also records the
memory the command was accepted with, `D0` (R146). -/
def startVector (s : State) : State :=
  if s.latch.n.toNat = 0 then setDone s
  else { s with idx := 0, status := { s.status with busy := true }, d0 := s.mem, tainted := false }

/-- The vector commands' part of acceptance: `validate`, `latch`, `start` (R110). -/
def acceptVector (op : VecOp) (s : State) : State :=
  match validate s.params (operandLen s) s.regs.abase.toNat s.regs.bbase.toNat s.regs.ybase.toNat with
  | some c => reject c s
  | none => startVector (latchOperands op s)

/-- AXPY.B's acceptance (R149). -/
def execAxpyB (s : State) : Host.Outcome State Fault Refusal := present (acceptVector .axpyB) s

/-- AXPY.V's acceptance (R151). -/
def execAxpyV (s : State) : Host.Outcome State Fault Refusal := present (acceptVector .axpyV) s

end Sys2Proof.Machine
end

