-- ==== Sys2Proof/Machine/Saturate.lean ====
section
/-! DEFINITION. The SAT command (41_saturation.md R132). -/

namespace Sys2Proof.Machine

/-- SAT: `RESULT <- sext32(q15_saturation_clamp(WIDE))`, then `DONE <- 1` (R132, R114). -/
def execSat (s : State) : Host.Outcome State Fault Refusal :=
  present (fun t => setDone (writeResult (q15SaturationClamp t.regs.wide) t)) s

end Sys2Proof.Machine
end

