-- ==== Sys2Proof/Machine/System.lean ====
section
/-! DEFINITION. The NOP command (40_command_flow.md R117). -/

namespace Sys2Proof.Machine

/-- NOP: no effect but acceptance's clearing and `DONE <- 1` (R117, R110, R114). -/
def execNop (s : State) : Host.Outcome State Fault Refusal := present setDone s

end Sys2Proof.Machine
end

