-- ==== Sys2Proof/Machine/Dispatch.lean ====
section
/-! DEFINITION. The dispatch from commands to their meanings: what `HostWrite(0x00, word)` does (30_encoding.md R93). -/

namespace Sys2Proof.Machine

def exec (i : Instr) (s : State) : Host.Outcome State Fault Refusal :=
  match i with
  | .nop => Sys2Proof.Machine.execNop s
  | .sat => Sys2Proof.Machine.execSat s
  | .axpy1 => Sys2Proof.Machine.execAxpy1 s
  | .axpyB => Sys2Proof.Machine.execAxpyB s
  | .axpyV => Sys2Proof.Machine.execAxpyV s

end Sys2Proof.Machine
end

