-- ==== Sys2Proof/Machine/Sequencer.lean ====
section
/-! DEFINITION. The sequencer steps of a running vector command: the AXPY.B element step (42_axpy_kernel.md R150), the
AXPY.V lane step (R152) and completion (40_command_flow.md R116). -/

namespace Sys2Proof.Machine

/-- Once a host write has broken the contract, every element of `y` is unspecified: each is drawn (20_memory.md R74). -/
def settleBroken (s : State) : State :=
  if s.tainted then
    { s with mem := writeElems s.latch.ybase (Config.brokenElement s.draws) (List.range s.latch.n.toNat) s.mem
             draws := s.draws + 1 }
  else s

/-- Completion: `BUSY <- 0; DONE <- 1` (R116). -/
def completeVector (s : State) : State :=
  { settleBroken s with status := { s.status with busy := false, done := true } }

/-- The end of a sequencer step: completion when `idx` has reached `L.n` (R116). -/
def finishStep (s : State) : State := if s.idx = s.latch.n.toNat then completeVector s else s

/-- Whether the first `k` elements of all three vectors of the running command lie inside DMEM. -/
def runInDmem (s : State) (k : Nat) : Bool :=
  vectorInDmem s.params s.latch.abase k && vectorInDmem s.params s.latch.bbase k
    && vectorInDmem s.params s.latch.ybase k

/-- `step_B()` (R150). An element outside DMEM does not exist and faults; acceptance rules that out (R61). -/
def stepB (s : State) : Host.Outcome State Fault Refusal :=
  if runInDmem s (s.idx + 1) then
    .next (finishStep { s with
      mem := write16 s.mem (elemAddr s.latch.ybase s.idx) (elemResult s.mem s.latch s.idx)
      idx := s.idx + 1 })
  else .fault .dmemAddressAbsent

/-- The number of elements of a lane step: `min(LANES, uint(L.n) - s)` (R152). -/
def laneCount (s : State) : Nat := min s.params.lanes (s.latch.n.toNat - s.idx)

/-- The memory after a lane step that writes its elements in the given order, each computed from the memory before
the step: all reads come before any write (R152). -/
def laneWrites (s : State) (order : List Nat) : Memory :=
  writeElems s.latch.ybase (elemResult s.mem s.latch) order s.mem

/-- The elements of a lane step, ascending; every order leaves the same memory (R152, U6, log 11). -/
def laneElems (s : State) : List Nat := (List.range (laneCount s)).map (fun j => s.idx + j)

/-- `step_V()` (R152). -/
def stepV (s : State) : Host.Outcome State Fault Refusal :=
  if runInDmem s (s.idx + laneCount s) then
    .next (finishStep { s with mem := laneWrites s (laneElems s), idx := s.idx + laneCount s })
  else .fault .dmemAddressAbsent

/-- The sequencer's turn: nothing while idle or in reset (R40, R187, R200), else the step of the running command. -/
def sequencerTurn (s : State) : Host.Outcome State Fault Refusal :=
  if s.rstHeld || !s.status.busy then .next s
  else match s.latch.op with
    | .axpyB => stepB s
    | .axpyV => stepV s

end Sys2Proof.Machine
end

