-- ==== Sys2Proof/Machine/HostPort.lean ====
section
/-! DEFINITION. What each action of the outside world does (60_exceptions.md R180): register transactions, a command
word written to CMD, the host's own DMEM accesses, and reset. -/

namespace Sys2Proof.Machine

/-- `HostWrite(0x00, w)`: dropped undecoded while BUSY (40_command_flow.md R111); else decoded, and rejected if
ILLEGAL or run (R110). -/
def cmdWrite (w : Word) (s : State) : Host.Outcome State Fault Refusal :=
  if s.status.busy then .next (dropCommand s)
  else match decode w with
    | .error _ => .next (reject .illegal (clearForAcceptance s))
    | .ok i => exec i s

/-- A register-interface read. It changes nothing but what the host has been told (20_memory.md R67). -/
def hostRegRead (off width : Nat) (s : State) : Host.Outcome State Fault Refusal :=
  if s.rstHeld then .refused .hostAccessDuringReset
  else match regAt off width with
    | none => .refused .outsideRegisterInterface
    | some r => .next { s with readData := readReg s r }

/-- A register-interface write (R67). -/
def hostRegWrite (off width : Nat) (v : Word) (s : State) : Host.Outcome State Fault Refusal :=
  if s.rstHeld then .refused .hostAccessDuringReset
  else match regAt off width with
    | none => .refused .outsideRegisterInterface
    | some .cmd => cmdWrite v s
    | some r => .next (writeReg v s r)

/-- The pattern a host read sees in element `i` of the running command's `y`: as at acceptance or final, drawn per
element and read (R73, R66); any value once the contract is broken (R74). -/
def busyElem (s : State) (i : Nat) : Half :=
  if s.tainted then Config.brokenElement s.draws i
  else if Config.busyReadSeesFinal s.draws i then elemResult s.d0 s.latch i
  else elem16 s.d0 s.latch.ybase i

/-- The byte a host DMEM read sees: inside `y` while BUSY, a byte of `busyElem` (R73); else what DMEM holds (R72).
DEDUCED (log 16), unsafe: the read sees the final `y` as soon as BUSY is 0, also before a `HostRead` of STATUS has
observed completion. R72 promises it only after that read, and R76 and R207 leave the time before it open. -/
def hostSeesByte (s : State) (a : Nat) : Byte :=
  if s.status.busy && inVector s.latch.ybase s.latch.n.toNat a then
    let d := a - s.latch.ybase.toNat
    (busyElem s (d / 2)).extractLsb' (8 * (d % 2)) 8
  else readByte s.mem a

/-- The host's own read of DMEM bytes, one atomic step (log 14). A read while BUSY draws afresh (log 9). While `rst` is
held the host may touch nothing (70_reset_and_hazards.md R211, log 4). -/
def hostDmemRead (addr count : Nat) (s : State) : Host.Outcome State Fault Refusal :=
  if s.rstHeld then .refused .hostAccessDuringReset
  else if addr + count ≤ s.params.dmemSize then
    .next { s with
      dmemData := (List.range count).map (fun k => hostSeesByte s (addr + k))
      draws := if s.status.busy then s.draws + 1 else s.draws }
  else .fault .dmemAddressAbsent

/-- Whether an address lies in the `a`, `b` or `y` range of the running command (R74). -/
def inRunRanges (s : State) (a : Nat) : Bool :=
  inVector s.latch.abase s.latch.n.toNat a || inVector s.latch.bbase s.latch.n.toNat a
    || inVector s.latch.ybase s.latch.n.toNat a

/-- The host's own write of DMEM bytes. While BUSY, a byte inside the running command's ranges breaks the contract
(R74); a write outside them has no effect on the command. Refused while `rst` is held (R211, log 4). -/
def hostDmemWrite (addr : Nat) (bytes : List Byte) (s : State) : Host.Outcome State Fault Refusal :=
  if s.rstHeld then .refused .hostAccessDuringReset
  else if addr + bytes.length ≤ s.params.dmemSize then
    .next { s with
      mem := writeBytes s.mem addr bytes
      tainted := s.tainted
        || (s.status.busy && (List.range bytes.length).any (fun k => inRunRanges s (addr + k))) }
  else .fault .dmemAddressAbsent

/-- The pattern reset leaves in element `i` of an abandoned command's `y` (70_reset_and_hazards.md R201, R74). -/
def abandonedElem (s : State) (i : Nat) : Half :=
  if s.tainted then Config.brokenElement s.draws i
  else if Config.abandonedIsFinal s.draws i then elemResult s.d0 s.latch i
  else elem16 s.d0 s.latch.ybase i

/-- Abandons a running command: each element of `y` is left as at acceptance or final, in any combination; no other
byte changes (R201). Nothing happens to DMEM while idle (R202). -/
def abandonRun (s : State) : State :=
  if s.status.busy then
    { s with mem := writeElems s.latch.ybase (abandonedElem s) (List.range s.latch.n.toNat) s.mem
             draws := s.draws + 1 }
  else s

/-- Every register and field of the block at its reset value (R200, R45); DMEM is not the block's (R202). -/
def resetBlock (s : State) : State :=
  { s with status := Status.reset, ie := IntEnable.reset, regs := OperandRegs.reset, result := 0
           latch := Latch.reset, idx := 0, d0 := [], tainted := false }

/-- `rst` goes active: the one reset step, after which `rst` is held (R200). -/
def applyReset (s : State) : State := { resetBlock (abandonRun s) with rstHeld := true }

/-- One action of the outside world. -/
def hostTurn (a : HostAction) (s : State) : Host.Outcome State Fault Refusal :=
  match a with
  | .regRead off width => hostRegRead off width s
  | .regWrite off width v => hostRegWrite off width v s
  | .dmemRead addr count => hostDmemRead addr count s
  | .dmemWrite addr bytes => hostDmemWrite addr bytes s
  | .rstAssert => .next (applyReset s)
  | .rstRelease => .next { s with rstHeld := false }

/-- The next agent's turn, taken off the schedule (R180); with nothing scheduled the sequencer has it, so that a busy
block always goes on (40_command_flow.md R120) and an idle one keeps its state (60_exceptions.md R187). -/
def nextTurn (s : State) : Host.Outcome State Fault Refusal :=
  match s.inputs with
  | [] => sequencerTurn s
  | .sequencer :: rest => sequencerTurn { s with inputs := rest }
  | .host a :: rest => hostTurn a { s with inputs := rest }

/-- The write of a command word, put at the front of the schedule with `rst` released. -/
def scheduleCommand (w : Word) (s : State) : State :=
  { s with inputs := .host (.regWrite 0x00 32 w) :: s.inputs, rstHeld := false }

end Sys2Proof.Machine
end

