-- ==== Sys2Proof/Machine/Step.lean ====
section
/-! DEFINITION. The step function, and where a command is placed so that the very next step runs it. -/

namespace Sys2Proof.Machine

/-- One atomic step of the block with its surroundings (00_scope.md R13, 60_exceptions.md R180). -/
def step (s : State) : Host.Outcome State Fault Refusal := nextTurn s

/-- `s` with the command word of the given table bits as the next host transaction: `HostWrite(0x00, word)`. The block
fetches nothing (10_state.md R22); this stands for the host that issues the command (log 3). -/
def State.withFetchWord (s : State) (nbits w : Nat) : State := scheduleCommand (tableWord nbits w) s

end Sys2Proof.Machine
end

