-- ==== Sys2Proof/Safety.lean ====
section
/-! DEFINITION. What a good state is, in the terms the statements use: the legal values of STATUS (10_state.md R24), the
invariant every step keeps, and what is known of DMEM while a vector command runs (R42, 42_axpy_kernel.md R146). -/

namespace Sys2Proof.Machine

/-- The legal values of STATUS (R24): BUSY excludes DONE and ERR; ECAUSE is 0 exactly when ERR is 0; ECAUSE is at most 4. -/
def Status.legal (st : Status) : Bool :=
  (!st.busy || (!st.done && !st.err)) && ((st.ecause == 0#4) == !st.err) && st.ecause.toNat ≤ 4

/-- Every written byte is at an address of DMEM (20_memory.md R60). -/
abbrev Memory.inside (p : Params) (m : Memory) : Prop := ∀ c ∈ m, c.1 < p.dmemSize

/-- The check of 40_command_flow.md R112 on the operand registers. -/
def operandCause (s : State) : Option Cause :=
  validate s.params (operandLen s) s.regs.abase.toNat s.regs.bbase.toNat s.regs.ybase.toNat

/-- The check of R112 on a latched record. -/
def latchCause (p : Params) (l : Latch) : Option Cause :=
  validate p l.n.toNat l.abase.toNat l.bbase.toNat l.ybase.toNat

/-- What holds in every state of a run: the parameters are legal (00_scope.md R7), STATUS has a legal value (R24), DMEM is
in canonical form inside its addresses (R60), RESULT is a sign-extended Q15 value (R32), a held reset means idle
(70_reset_and_hazards.md R200), and a running command has passed validation and has elements left (R40, R42). -/
structure GoodState (s : State) : Prop where
  params : s.params.wf = true
  status : s.status.legal = true
  memWf : Memory.wf s.mem
  memInside : Memory.inside s.params s.mem
  resultQ15 : s.result = (s.result.setWidth 16).signExtend 32
  heldIdle : s.rstHeld = true → s.status.busy = false
  runValid : s.status.busy = true → latchCause s.params s.latch = none
  runLeft : s.status.busy = true → s.idx < s.latch.n.toNat

/-- What is known of DMEM while a command runs and the host has kept out of its ranges: the elements before `idx` hold
their final values, and every other byte of the three ranges is as it was at acceptance (R42, R146). -/
structure RunProgress (s : State) : Prop where
  written : s.status.busy = true → s.tainted = false →
    ∀ i, i < s.idx → elem16 s.mem s.latch.ybase i = elemResult s.d0 s.latch i
  untouched : s.status.busy = true → s.tainted = false →
    ∀ a, inRunRanges s a = true → inVector s.latch.ybase s.idx a = false → readByte s.mem a = readByte s.d0 a

/-- The host writes command word `w` (30_encoding.md R91). -/
def cmdSlot (w : Word) : Slot := .host (.regWrite 0x00 32 w)

/-- STATUS once a command has completed inside its acceptance (R110, R114). -/
def Status.completed (st : Status) : Status := { st with done := true, err := false, ecause := 0 }

/-- STATUS once a command has been rejected at acceptance (R110, 60_exceptions.md R172). -/
def Status.rejected (st : Status) (c : Cause) : Status := { st with done := false, err := true, ecause := causeCode c }

/-- STATUS once a vector command has started (R110, R115). -/
def Status.started (st : Status) : Status := { st with busy := true, done := false, err := false, ecause := 0 }

/-- STATUS once a command word has been dropped (R111). -/
def Status.dropped (st : Status) : Status := { st with drop := true }

/-- The record a vector command latches (R113). -/
def latchedRecord (op : VecOp) (s : State) : Latch :=
  { op := op, alpha := s.regs.alpha, n := s.regs.len, abase := s.regs.abase, bbase := s.regs.bbase
    ybase := s.regs.ybase }

/-- Every word whose OP is `op` and whose RSVD is not zero is rejected as ILLEGAL when it is presented to an idle block, and
nothing but STATUS (and the schedule it came from) changes (30_encoding.md R95, 60_exceptions.md R172). -/
def OtherWordsIllegal (op : BitVec 4) : Prop :=
  ∀ (s : State) (w : Word) (rest : List Slot), s.inputs = cmdSlot w :: rest → s.rstHeld = false →
    s.status.busy = false → w.extractLsb' 0 4 = op → w.extractLsb' 4 28 ≠ 0#28 →
    step s = .next { s with inputs := rest, status := s.status.rejected .illegal }

/-- The same block placed at another platform address (00_scope.md R7). -/
def State.withRegBase (b : Nat) (s : State) : State := { s with params := { s.params with regBase := b } }

/-- An outcome with its next state, if any, changed. -/
def mapNext (f : State → State) : Host.Outcome State Fault Refusal → Host.Outcome State Fault Refusal
  | .next t => .next (f t)
  | .fault e => .fault e
  | .refused r => .refused r

/-- The host's next action is a write of STATUS with bit `k` set (10_state.md R25). -/
def clearsStatusBit (s : State) (k : Nat) : Prop :=
  ∃ v rest, s.inputs = .host (.regWrite 0x04 32 v) :: rest ∧ v.getLsbD k = true

/-- The next action is that `rst` goes active (70_reset_and_hazards.md R200). -/
def resets (s : State) : Prop := ∃ rest, s.inputs = .host .rstAssert :: rest

/-- The host's next action presents a command word to an idle block (40_command_flow.md R110). -/
def acceptsWord (s : State) : Prop := ∃ w rest, s.inputs = cmdSlot w :: rest ∧ s.status.busy = false

/-- The vector command of a strategy. -/
def VecOp.instr : VecOp → Instr
  | .axpyB => .axpyB
  | .axpyV => .axpyV

/-- Whether this is the sequencer's turn: its slot, or nothing scheduled. -/
def sequencerNext (s : State) : Bool :=
  match s.inputs with
  | [] => true
  | .sequencer :: _ => true
  | .host _ :: _ => false

end Sys2Proof.Machine
end

