-- ==== Sys2Proof/Certificates/Slice0/Obligations.lean ====
section
/-! DEFINITION. The statements about the model, in the order of OBLIGATIONS.json. The fields `inputs` (log 3), `rstHeld`
(log 4), `params` (log 5), `readData` and `dmemData` (log 6), `d0` (log 7), `tainted` (log 8) and `draws` (log 9) are the
model's own; a clause about one of them is the model's, not a rule's. -/

open Sys2Proof Sys2Proof.Machine

/-! ### Encoding -/

/-- Decoding is R94's total function, and acceptance rejects every other word with cause ILLEGAL. That the rejection clears
DONE and keeps the rest is R172's, taken over R95's words: the model's choice, log 13 (DEDUCED). -/
def Obligations.DecodeFollowsOpcodeMap : Prop :=
  (∀ w : Word, decode w =
    if w.toNat = 0 then .ok .nop
    else if w.toNat = 1 then .ok .sat
    else if w.toNat = 2 then .ok .axpy1
    else if w.toNat = 3 then .ok .axpyB
    else if w.toNat = 4 then .ok .axpyV
    else if w.toNat < 16 then .error .reservedOpcode
    else .error .reservedBits) ∧
  (∀ (s : State) (w : Word) (rest : List Slot), s.inputs = cmdSlot w :: rest → s.rstHeld = false →
    s.status.busy = false → 4 < w.toNat →
    step s = .next { s with inputs := rest, status := s.status.rejected .illegal })

/-- Decoding and encoding agree on every word and every command: each legal word has exactly one spelling (R93). -/
def Obligations.DecodeOkIffEncoded : Prop :=
  (∀ (w : Word) (i : Instr), decode w = .ok i ↔ w = encode i) ∧
  (∀ (w : Word) (i : Instr), decodeTableWord 32 w.toNat = some i ↔ w = encode i) ∧
  (∀ w : Word, (∃ i, decode w = .ok i) ↔ (c32Of w).wf = true)

/-- A sanity statement: the words of R93's table and of 95_test_vectors.md section 2.4. -/
def Obligations.OpcodeWordsDecode : Prop :=
  decode 0x00000000#32 = .ok .nop ∧ decode 0x00000001#32 = .ok .sat ∧ decode 0x00000002#32 = .ok .axpy1 ∧
  decode 0x00000003#32 = .ok .axpyB ∧ decode 0x00000004#32 = .ok .axpyV ∧
  decode 0x00000005#32 = .error .reservedOpcode ∧ decode 0x0000000F#32 = .error .reservedOpcode ∧
  decode 0x00000010#32 = .error .reservedBits ∧ decode 0x80000001#32 = .error .reservedBits

/-- A step that writes a legal command word runs the decoded command, with the write taken off the schedule; `withFetchWord`
places such a write. -/
def Obligations.StepRunsPresentedCommand : Prop :=
  (∀ (s : State) (w : Word) (rest : List Slot) (i : Instr), s.inputs = cmdSlot w :: rest → s.rstHeld = false →
    decode w = .ok i → step s = exec i { s with inputs := rest }) ∧
  (∀ (s : State) (i : Instr), step (s.withFetchWord 32 (encode i).toNat) = exec i { s with rstHeld := false })

/-! ### Arithmetic -/

/-- R130. -/
def Obligations.SaturateClampsToQ15 : Prop :=
  ∀ v : Int, (v > 32767 → q15Sat v = 32767) ∧ (v < -32768 → q15Sat v = -32768) ∧
    (-32768 ≤ v → v ≤ 32767 → q15Sat v = v) ∧ -32768 ≤ q15Sat v ∧ q15Sat v ≤ 32767

/-- R134. -/
def Obligations.SaturateLaws : Prop :=
  (∀ v : Int, q15Sat v = min 32767 (max (-32768) v)) ∧
  (∀ v : Int, -32768 ≤ v → v ≤ 32767 → q15Sat v = v) ∧
  (∀ v : Int, q15Sat (q15Sat v) = q15Sat v) ∧
  (∀ v w : Int, v ≤ w → q15Sat v ≤ q15Sat w) ∧
  (∀ v : Int, q15Sat v = 32767 ↔ v ≥ 32767) ∧
  (∀ v : Int, q15Sat v = -32768 ↔ v ≤ -32768)

/-- R131: the unit computes `q15_sat` of its signed input, and its bit form. -/
def Obligations.ClampUnitBitForm : Prop :=
  (∀ v : Word, (q15SaturationClamp v).toInt = q15Sat v.toInt) ∧
  (∀ v : Word, q15SaturationClamp v =
    if v.extractLsb' 15 17 = 0#17 ∨ v.extractLsb' 15 17 = BitVec.allOnes 17 then v.extractLsb' 0 16
    else if v.getLsbD 31 = true then 0x8000#16
    else 0x7FFF#16)

/-- R143: the shift is the floor of the quotient, for every sign. -/
def Obligations.ShiftRoundsDown : Prop :=
  (∀ v : Int, 32768 * asr v 15 ≤ v ∧ v < 32768 * (asr v 15 + 1)) ∧
  asr (-1) 15 = -1 ∧ asr (-32768) 15 = -1 ∧ asr (-32769) 15 = -2 ∧ asr 32767 15 = 0

/-- R141: the ranges of the product, the scaled value and the sum, each attained. -/
def Obligations.IntermediateRanges : Prop :=
  (∀ a b alpha : Half,
    -1073709056 ≤ alpha.toInt * b.toInt ∧ alpha.toInt * b.toInt ≤ 1073741824 ∧
    -32767 ≤ asr (alpha.toInt * b.toInt) 15 ∧ asr (alpha.toInt * b.toInt) 15 ≤ 32768 ∧
    -65535 ≤ a.toInt + asr (alpha.toInt * b.toInt) 15 ∧ a.toInt + asr (alpha.toInt * b.toInt) 15 ≤ 65535) ∧
  (-32768 * 32767 : Int) = -1073709056 ∧ (32767 * -32768 : Int) = -1073709056 ∧
  (-32768 * -32768 : Int) = 1073741824 ∧
  asr (-32768 * 32767) 15 = -32767 ∧ asr (32767 * -32768) 15 = -32767 ∧ asr (-32768 * -32768) 15 = 32768 ∧
  -32768 + asr (-32768 * 32767) 15 = -65535 ∧ 32767 + asr (-32768 * -32768) 15 = 65535

/-- R142: one saturation, at the end; a clamp of the scaled value would give another result. -/
def Obligations.SaturatesOnce : Prop :=
  (∀ a b alpha : Int, axpyElem a b alpha = q15Sat (a + alpha * b / 32768)) ∧
  asr (-32768 * -32768) 15 = 32768 ∧
  axpyElem (-1) (-32768) (-32768) = 32767 ∧ q15Sat (-1 + q15Sat (asr (-32768 * -32768) 15)) = 32766

/-- R144: no internal signal of the unit overflows, and the unit computes the element function. -/
def Obligations.DatapathComputesElement : Prop :=
  ∀ a b alpha : Half,
    let product : Word := BitVec.ofInt 32 (alpha.toInt * b.toInt)
    let scaled : Word := (product.extractLsb' 15 17).signExtend 32
    let sum : Word := BitVec.ofInt 32 ((a.signExtend 32).toInt + scaled.toInt)
    product.toInt = alpha.toInt * b.toInt ∧
    scaled = BitVec.ofInt 32 (asr product.toInt 15) ∧
    sum.toInt = a.toInt + scaled.toInt ∧
    axpyElemUnit a b alpha = q15SaturationClamp sum ∧
    (axpyElemUnit a b alpha).toInt = axpyElem a.toInt b.toInt alpha.toInt

/-- A zero alpha copies `a`, as an integer function and for every element a vector command computes. -/
def Obligations.ZeroAlphaCopies : Prop :=
  (∀ a b : Int, -32768 ≤ a → a ≤ 32767 → axpyElem a b 0 = a) ∧
  (∀ (m : Memory) (l : Latch) (i : Nat), l.alpha = 0 → elemResult m l i = elem16 m l.abase i)

/-- R157: the corner cases of the element function. -/
def Obligations.ElementCornerCases : Prop :=
  (∀ a b : Int, asr (-32768 * b) 15 = -b ∧ axpyElem a b (-32768) = q15Sat (a - b)) ∧
  axpyElem 0 (-32768) (-32768) = 32767 ∧ asr (-32768 * -32768) 15 = 32768 ∧
  axpyElem (-32768) (-32768) (-32768) = 0 ∧ axpyElem (-1) (-32768) (-32768) = 32767 ∧
  asr (32767 * 32767) 15 = 32766 ∧ axpyElem 0 32767 32767 = 32766 ∧
  axpyElem 0 (-1) 1 = -1 ∧ axpyElem 0 (-1) 32767 = -1 ∧ axpyElem 0 (-3) 16384 = -2 ∧ axpyElem 0 3 16384 = 1 ∧
  axpyElem 0 1 32767 = 0 ∧
  axpyElem 32767 32767 32767 = 32767 ∧ 32767 + asr (32767 * 32767) 15 = 65533 ∧
  axpyElem (-32768) (-32768) 32767 = -32768 ∧ -32768 + asr (32767 * -32768) 15 = -65535

/-! ### The commands -/

/-- NOP's encoding, effect, flags, corner cases and example (R117). That another word with OP = 0 clears DONE, as
`OtherWordsIllegal` says, is R172's, taken over R95's words: the model's choice, log 13 (DEDUCED). -/
def Obligations.NopCommand : Prop :=
  decode 0x00000000#32 = .ok .nop ∧ OtherWordsIllegal 0x0 ∧
  (∀ s : State, s.status.busy = false → exec .nop s = .next { s with status := s.status.completed }) ∧
  (∀ s : State, s.status.busy = true → exec .nop s = .next { s with status := s.status.dropped }) ∧
  (∀ p : Params, ∃ t, exec .nop (State.resetWith p) = .next t ∧ readReg t .status = 0x00000002#32)

/-- SAT's encoding, result, flags, corner cases and example (R132). That another word with OP = 1 clears DONE, as
`OtherWordsIllegal` says, is R172's, taken over R95's words: the model's choice, log 13 (DEDUCED). -/
def Obligations.SatCommand : Prop :=
  decode 0x00000001#32 = .ok .sat ∧ OtherWordsIllegal 0x1 ∧
  (∀ s : State, s.status.busy = false → exec .sat s = .next { s with
    result := (BitVec.ofInt 16 (q15Sat s.regs.wide.toInt)).signExtend 32
    status := s.status.completed }) ∧
  (∀ s : State, s.status.busy = true → exec .sat s = .next { s with status := s.status.dropped }) ∧
  (∀ s : State, s.status.busy = false → ∀ c ∈
    ([(0x7FFFFFFF, 0x00007FFF), (0x80000000, 0xFFFF8000), (0x00008000, 0x00007FFF), (0xFFFF7FFF, 0xFFFF8000),
      (0x00007FFF, 0x00007FFF), (0xFFFF8000, 0xFFFF8000), (0xFFFFFFFF, 0xFFFFFFFF), (0x00010000, 0x00007FFF)]
      : List (Word × Word)), s.regs.wide = c.1 → ∃ t, exec .sat s = .next t ∧ t.result = c.2) ∧
  (∀ s : State, s.status.busy = false → s.status.drop = false →
    ∃ t, exec .sat s = .next t ∧ readReg t .status = 0x00000002#32)

/-- AXPY1's encoding, result, flags, corner cases and example (R145). That another word with OP = 2 clears DONE, as
`OtherWordsIllegal` says, is R172's, taken over R95's words: the model's choice, log 13 (DEDUCED). -/
def Obligations.Axpy1Command : Prop :=
  decode 0x00000002#32 = .ok .axpy1 ∧ OtherWordsIllegal 0x2 ∧
  (∀ s : State, s.status.busy = false → exec .axpy1 s = .next { s with
    result := (BitVec.ofInt 16 (axpyElem s.regs.opa.toInt s.regs.opb.toInt s.regs.alpha.toInt)).signExtend 32
    status := s.status.completed }) ∧
  (∀ s : State, s.status.busy = true → exec .axpy1 s = .next { s with status := s.status.dropped }) ∧
  (∀ s : State, s.status.busy = false → s.regs.alpha = 0 →
    ∃ t, exec .axpy1 s = .next t ∧ t.result = s.regs.opa.signExtend 32) ∧
  (∀ s : State, s.status.busy = false → ∀ c ∈
    ([(0xFFFF, 0x8000, 0x8000, 0x00007FFF), (0x0000, 0xFFFF, 0x0001, 0xFFFFFFFF),
      (0x1000, 0x4000, 0x4000, 0x00003000)] : List (Half × Half × Half × Word)),
    s.regs.opa = c.1 → s.regs.opb = c.2.1 → s.regs.alpha = c.2.2.1 →
    ∃ t, exec .axpy1 s = .next t ∧ t.result = c.2.2.2)

/-- R114: NOP, SAT and AXPY1 complete inside their acceptance step, without BUSY, and no sequencer step follows. -/
def Obligations.ImmediateCommandsComplete : Prop :=
  ∀ (s : State) (i : Instr), s.status.busy = false → i = .nop ∨ i = .sat ∨ i = .axpy1 →
    ∃ t, exec i s = .next t ∧ t.status.busy = false ∧ t.status.done = true ∧ sequencerTurn t = .next t

/-- R115: an accepted vector command whose operands pass validation starts the sequencer with its latched record, or
completes at once when the vector is empty. What the model's own `d0` and `tainted` hold is left open here (logs 7, 8). -/
def Obligations.VectorCommandStarts : Prop :=
  ∀ (s : State) (op : VecOp), s.status.busy = false → operandCause s = none →
    (s.regs.len = 0 → exec op.instr s = .next { s with
      latch := latchedRecord op s, status := s.status.completed }) ∧
    (s.regs.len ≠ 0 → ∃ m0 b, exec op.instr s = .next { s with
      latch := latchedRecord op s, idx := 0, status := s.status.started, d0 := m0, tainted := b })

/-- R172: a rejection records ERR and ECAUSE, leaves DONE clear, and changes nothing else. For an illegal word R95 differs
on DONE, and the model follows R172 (log 13). -/
def Obligations.RejectionIsPrecise : Prop :=
  (∀ (s : State) (op : VecOp) (c : Cause), s.status.busy = false → operandCause s = some c →
    exec op.instr s = .next { s with status := { s.status with
      done := false, err := true
      ecause := match c with | .illegal => 1 | .misaligned => 2 | .range => 3 | .overlap => 4 } }) ∧
  (∀ (s : State) (w : Word) (rest : List Slot) (e : IllegalWord), s.inputs = cmdSlot w :: rest →
    s.rstHeld = false → s.status.busy = false → decode w = .error e →
    step s = .next { s with inputs := rest, status := { s.status with done := false, err := true, ecause := 1 } })

/-- R173: the cause reported is the first of ILLEGAL, MISALIGNED, RANGE, OVERLAP that applies. -/
def Obligations.RejectionPriority : Prop :=
  ∀ (s : State) (w : Word) (rest : List Slot), s.inputs = cmdSlot w :: rest → s.rstHeld = false →
    s.status.busy = false →
    let n := s.regs.len.toNat
    let ab := s.regs.abase.toNat
    let bb := s.regs.bbase.toNat
    let yb := s.regs.ybase.toNat
    let odd := ab % 2 = 1 ∨ bb % 2 = 1 ∨ yb % 2 = 1
    let far := ab + 2 * n > s.params.dmemSize ∨ bb + 2 * n > s.params.dmemSize ∨ yb + 2 * n > s.params.dmemSize
    let mixed := (yb ≠ ab ∧ yb < ab + 2 * n ∧ ab < yb + 2 * n) ∨ (yb ≠ bb ∧ yb < bb + 2 * n ∧ bb < yb + 2 * n)
    ∃ t, step s = .next t ∧
      (4 < w.toNat → t.status.err = true ∧ t.status.ecause = 1) ∧
      (w.toNat ≤ 2 → t.status.err = false ∧ t.status.ecause = 0) ∧
      (w.toNat = 3 ∨ w.toNat = 4 →
        (odd → t.status.err = true ∧ t.status.ecause = 2) ∧
        (¬odd → far → t.status.err = true ∧ t.status.ecause = 3) ∧
        (¬odd → ¬far → mixed → t.status.err = true ∧ t.status.ecause = 4) ∧
        (¬odd → ¬far → ¬mixed → t.status.err = false ∧ t.status.ecause = 0))

/-- `partial_overlap` is what R147 says it is: the ranges intersect while starting at different bases. -/
def Obligations.PartialOverlapIsSharedByte : Prop :=
  ∀ p q n : Nat, partialOverlap p q n = true ↔
    p ≠ q ∧ ∃ x, (p ≤ x ∧ x < p + 2 * n) ∧ (q ≤ x ∧ x < q + 2 * n)

/-- After validation the only input byte an element write can land on is of the input element at its own index (R147). -/
def Obligations.OutputMeetsInputsAtOwnIndex : Prop :=
  ∀ (p : Params) (l : Latch) (i j x : Nat), latchCause p l = none → i < l.n.toNat → j < l.n.toNat →
    (x = elemAddr l.ybase j ∨ x = elemAddr l.ybase j + 1) →
    (x = elemAddr l.abase i ∨ x = elemAddr l.abase i + 1) ∨ (x = elemAddr l.bbase i ∨ x = elemAddr l.bbase i + 1) →
    i = j

/-- R111: a command word that arrives while BUSY sets DROP and does nothing else, whatever the word; DROP then stays until
the host clears it or reset. -/
def Obligations.BusyDropsCommandWord : Prop :=
  (∀ (s : State) (w : Word) (rest : List Slot), s.inputs = cmdSlot w :: rest → s.rstHeld = false →
    s.status.busy = true → step s = .next { s with inputs := rest, status := s.status.dropped }) ∧
  (∀ (s : State) (i : Instr), s.status.busy = true → exec i s = .next { s with status := s.status.dropped }) ∧
  (∀ s t : State, step s = .next t → s.status.drop = true → t.status.drop = false →
    (∃ v rest, s.inputs = .host (.regWrite 0x04 32 v) :: rest ∧ v.getLsbD 3 = true) ∨
    (∃ rest, s.inputs = .host .rstAssert :: rest))

/-- The frame of acceptance, for all five commands: operand registers, IE, every byte of DMEM and the surroundings are
unchanged; RESULT changes only by SAT and AXPY1, `L` and `idx` only by AXPY.B and AXPY.V, BUSY only by the latter. -/
def Obligations.CommandFrame : Prop :=
  ∀ (i : Instr) (s t : State), exec i s = .next t →
    t.ie = s.ie ∧ t.regs = s.regs ∧ (∀ a, readByte t.mem a = readByte s.mem a) ∧ t.mem = s.mem ∧
    t.params = s.params ∧ t.rstHeld = s.rstHeld ∧ t.draws = s.draws ∧ t.inputs = s.inputs ∧
    t.readData = s.readData ∧ t.dmemData = s.dmemData ∧
    (s.status.busy = false → t.status.drop = s.status.drop) ∧
    (i ≠ .sat → i ≠ .axpy1 → t.result = s.result) ∧
    (i ≠ .axpyB → i ≠ .axpyV → t.latch = s.latch ∧ t.idx = s.idx ∧ t.d0 = s.d0 ∧ t.tainted = s.tainted ∧
      t.status.busy = s.status.busy)

/-! ### The sequencer -/

/-- R150: the element step, while the host has kept out of the ranges. It computes the element at `idx` from DMEM as it is,
writes its two bytes and no other, advances `idx`, and completes at `L.n`; while idle the sequencer does nothing. -/
def Obligations.ElementStepEffect : Prop :=
  (∀ s : State, GoodState s → s.status.busy = true → s.latch.op = .axpyB → s.tainted = false → sequencerNext s = true →
    ∃ m : Memory,
      step s = .next { s with
        inputs := s.inputs.tail, mem := m, idx := s.idx + 1
        status := if s.idx + 1 = s.latch.n.toNat then { s.status with busy := false, done := true } else s.status } ∧
      elem m s.latch.ybase s.idx =
        axpyElem (elem s.mem s.latch.abase s.idx) (elem s.mem s.latch.bbase s.idx) s.latch.alpha.toInt ∧
      ∀ a, a ≠ elemAddr s.latch.ybase s.idx → a ≠ elemAddr s.latch.ybase s.idx + 1 →
        readByte m a = readByte s.mem a) ∧
  (∀ s : State, s.status.busy = false → sequencerNext s = true → step s = .next { s with inputs := s.inputs.tail })

/-- R152: the lane step, while the host has kept out of the ranges. It computes `min(LANES, n - idx)` elements from DMEM as
it was before the step, writes their bytes and no other, in an order that does not matter, and completes at `L.n`. -/
def Obligations.LaneStepEffect : Prop :=
  ∀ s : State, GoodState s → s.status.busy = true → s.latch.op = .axpyV → s.tainted = false → sequencerNext s = true →
    let k := min s.params.lanes (s.latch.n.toNat - s.idx)
    ∃ m : Memory, 1 ≤ k ∧ k ≤ s.params.lanes ∧
      step s = .next { s with
        inputs := s.inputs.tail, mem := m, idx := s.idx + k
        status := if s.idx + k = s.latch.n.toNat then { s.status with busy := false, done := true } else s.status } ∧
      (∀ j, j < k → elem m s.latch.ybase (s.idx + j) =
        axpyElem (elem s.mem s.latch.abase (s.idx + j)) (elem s.mem s.latch.bbase (s.idx + j)) s.latch.alpha.toInt) ∧
      (∀ a, (∀ j, j < k → a ≠ elemAddr s.latch.ybase (s.idx + j) ∧ a ≠ elemAddr s.latch.ybase (s.idx + j) + 1) →
        readByte m a = readByte s.mem a) ∧
      (∀ order : List Nat, order.Perm ((List.range k).map (fun j => s.idx + j)) → laneWrites s order = m)

/-- With one lane a lane step is an element step (R151's corner case). -/
def Obligations.OneLaneStepsLikeBaseline : Prop :=
  ∀ s : State, GoodState s → s.status.busy = true → s.params.lanes = 1 → stepV s = stepB s

/-- The sequencer of a good state always has a next state: the block never makes an access outside DMEM (R60, R61) and the
arithmetic never stops (R141). -/
def Obligations.SequencerNeverStops : Prop :=
  ∀ s : State, GoodState s → ∃ t, sequencerTurn s = .next t

/-- The sequencer writes only inside the running command's `y` range (R61), and changes no operand register, IE or RESULT. -/
def Obligations.SequencerWritesOnlyOutput : Prop :=
  ∀ s t : State, GoodState s → sequencerTurn s = .next t →
    (∀ a, inVector s.latch.ybase s.latch.n.toNat a = false → readByte t.mem a = readByte s.mem a) ∧
    (s.status.busy = false → t = s) ∧
    t.regs = s.regs ∧ t.ie = s.ie ∧ t.result = s.result ∧ t.latch = s.latch ∧ t.inputs = s.inputs ∧
    t.status.err = s.status.err ∧ t.status.drop = s.status.drop ∧ t.status.ecause = s.status.ecause

/-! ### Invariants and whole commands -/

/-- The invariant and the run's progress hold after reset, for every parameter value. -/
def Obligations.ResetIsGood : Prop :=
  ∀ p : Params, p.wf = true → GoodState (State.resetWith p) ∧ RunProgress (State.resetWith p)

/-- Every step keeps the invariant. -/
def Obligations.StepKeepsInvariant : Prop :=
  ∀ s t : State, GoodState s → step s = .next t → GoodState t

/-- Every step, of the host or of the sequencer, keeps what is known of DMEM during a run. -/
def Obligations.StepKeepsRunProgress : Prop :=
  ∀ s t : State, GoodState s → RunProgress s → step s = .next t → RunProgress t

/-- Whatever host steps were interleaved, a step that completes a command whose ranges the host kept out of leaves in every
element of `y` the element function of the inputs as they were at acceptance (R146). -/
def Obligations.CompletionDeliversResult : Prop :=
  ∀ s t : State, GoodState s → RunProgress s → s.status.busy = true → s.tainted = false → step s = .next t →
    t.status.busy = false → t.status.done = true →
    t.idx = s.latch.n.toNat ∧
    ∀ i, i < s.latch.n.toNat → elem t.mem s.latch.ybase i =
      axpyElem (elem s.d0 s.latch.abase i) (elem s.d0 s.latch.bbase i) s.latch.alpha.toInt

/-- An accepted AXPY.B takes exactly `n` element steps and leaves R146's result. -/
def Obligations.BaselineCommandResult : Prop :=
  ∀ s : State, GoodState s → s.status.busy = false → s.rstHeld = false → s.inputs = [] → operandCause s = none →
    let n := s.regs.len.toNat
    ∃ t u, exec .axpyB s = .next t ∧ Host.Core.run core n t = .next u ∧
      u.status = s.status.completed ∧
      (∀ k, k < n → ∃ v, Host.Core.run core k t = .next v ∧ v.status = s.status.started) ∧
      (∀ i, i < n → elem u.mem s.regs.ybase i =
        axpyElem (elem s.mem s.regs.abase i) (elem s.mem s.regs.bbase i) s.regs.alpha.toInt) ∧
      (∀ a, inVector s.regs.ybase n a = false → readByte u.mem a = readByte s.mem a)

/-- An accepted AXPY.V takes exactly `ceil(n / LANES)` lane steps and leaves R146's result, for every LANES. -/
def Obligations.LaneCommandResult : Prop :=
  ∀ s : State, GoodState s → s.status.busy = false → s.rstHeld = false → s.inputs = [] → operandCause s = none →
    let n := s.regs.len.toNat
    let steps := (n + s.params.lanes - 1) / s.params.lanes
    ∃ t u, exec .axpyV s = .next t ∧ Host.Core.run core steps t = .next u ∧
      u.status = s.status.completed ∧
      (∀ k, k < steps → ∃ v, Host.Core.run core k t = .next v ∧ v.status = s.status.started) ∧
      (∀ i, i < n → elem u.mem s.regs.ybase i =
        axpyElem (elem s.mem s.regs.abase i) (elem s.mem s.regs.bbase i) s.regs.alpha.toInt) ∧
      (∀ a, inVector s.regs.ybase n a = false → readByte u.mem a = readByte s.mem a)

/-- The bit-exact equivalence of the two strategies (R153): from the same state, AXPY.B and AXPY.V with any number of lanes
have the same acceptance outcome and, after `n` steps without the host, the same DMEM and the same STATUS. -/
def Obligations.StrategiesAgree : Prop :=
  ∀ (s : State) (lanes : Nat), GoodState s → 1 ≤ lanes → s.status.busy = false → s.rstHeld = false → s.inputs = [] →
    let v : State := { s with params := { s.params with lanes := lanes } }
    (∀ c, operandCause s = some c →
      exec .axpyB s = .next { s with status := s.status.rejected c } ∧
      exec .axpyV v = .next { v with status := s.status.rejected c }) ∧
    (operandCause s = none →
      ∃ tB tV uB uV, exec .axpyB s = .next tB ∧ exec .axpyV v = .next tV ∧ tB.status = tV.status ∧
        Host.Core.run core s.regs.len.toNat tB = .next uB ∧ Host.Core.run core s.regs.len.toNat tV = .next uV ∧
        uB.mem = uV.mem ∧ uB.status = uV.status ∧ uB.status.busy = false)

/-- A running command completes in at most `n - idx` steps once the host is silent (R120, for a finite schedule, log 3).
That it does so even when a host write has broken the contract is the model's choice, log 8: R211 makes no claim about
such a run. -/
def Obligations.RunningCommandCompletes : Prop :=
  ∀ s : State, GoodState s → s.status.busy = true → s.inputs = [] →
    ∃ u, Host.Core.run core (s.latch.n.toNat - s.idx) s = .next u ∧
      u.status = { s.status with busy := false, done := true } ∧ u.latch = s.latch

/-- While a command runs, its latched operands and the accepted memory do not change and `idx` does not go back, whatever
the host writes (R113, R34). -/
def Obligations.RunningCommandKeepsOperands : Prop :=
  ∀ s t : State, step s = .next t → s.status.busy = true → t.status.busy = true →
    t.latch = s.latch ∧ t.d0 = s.d0 ∧ s.idx ≤ t.idx ∧ (s.tainted = true → t.tainted = true)

/-! ### The register interface -/

/-- What every register reads as (R21, R23, R24, R26 to R33), without a side effect on the block (R67). -/
def Obligations.RegisterReads : Prop :=
  ∀ (s : State) (rest : List Slot) (off : Nat), s.rstHeld = false → s.inputs = .host (.regRead off 32) :: rest →
    off % 4 = 0 → off ≤ 0xFC →
    ∃ v : Word, step s = .next { s with inputs := rest, readData := v } ∧
      (off = 0x00 → v = 0) ∧
      (off = 0x04 → v.toNat = s.status.busy.toNat + 2 * s.status.done.toNat + 4 * s.status.err.toNat
        + 8 * s.status.drop.toNat + 16 * s.status.ecause.toNat) ∧
      (off = 0x08 → v.toNat = s.ie.doneIe.toNat + 2 * s.ie.errIe.toNat) ∧
      (off = 0x0C → v.toNat = s.regs.alpha.toNat) ∧ (off = 0x10 → v = s.regs.len) ∧
      (off = 0x14 → v = s.regs.abase) ∧ (off = 0x18 → v = s.regs.bbase) ∧ (off = 0x1C → v = s.regs.ybase) ∧
      (off = 0x20 → v.toNat = s.regs.opa.toNat) ∧ (off = 0x24 → v.toNat = s.regs.opb.toNat) ∧
      (off = 0x28 → v = s.regs.wide) ∧ (off = 0x2C → v = s.result) ∧ (0x30 ≤ off → v = 0)

/-- What a write to every register but CMD and STATUS stores, and that it changes nothing else (R26 to R33, R34). -/
def Obligations.RegisterWrites : Prop :=
  ∀ (s : State) (rest : List Slot) (off : Nat) (v : Word), s.rstHeld = false →
    s.inputs = .host (.regWrite off 32 v) :: rest →
    let t : State := { s with inputs := rest }
    (off = 0x08 → step s = .next { t with ie := { doneIe := v.getLsbD 0, errIe := v.getLsbD 1 } }) ∧
    (off = 0x0C → step s = .next { t with regs := { s.regs with alpha := v.extractLsb' 0 16 } }) ∧
    (off = 0x10 → step s = .next { t with regs := { s.regs with len := v } }) ∧
    (off = 0x14 → step s = .next { t with regs := { s.regs with abase := v } }) ∧
    (off = 0x18 → step s = .next { t with regs := { s.regs with bbase := v } }) ∧
    (off = 0x1C → step s = .next { t with regs := { s.regs with ybase := v } }) ∧
    (off = 0x20 → step s = .next { t with regs := { s.regs with opa := v.extractLsb' 0 16 } }) ∧
    (off = 0x24 → step s = .next { t with regs := { s.regs with opb := v.extractLsb' 0 16 } }) ∧
    (off = 0x28 → step s = .next { t with regs := { s.regs with wide := v } }) ∧
    (off = 0x2C → step s = .next t) ∧
    (off % 4 = 0 → 0x30 ≤ off → off ≤ 0xFC → step s = .next t)

/-- A register write is visible to the very next transaction: reading it back gives the written bits that exist. -/
def Obligations.WriteThenReadBack : Prop :=
  ∀ (s : State) (rest : List Slot) (v : Word), s.rstHeld = false → ∀ c ∈
    ([(0x08, 0x00000003), (0x0C, 0x0000FFFF), (0x10, 0xFFFFFFFF), (0x14, 0xFFFFFFFF), (0x18, 0xFFFFFFFF),
      (0x1C, 0xFFFFFFFF), (0x20, 0x0000FFFF), (0x24, 0x0000FFFF), (0x28, 0xFFFFFFFF)] : List (Nat × Word)),
    s.inputs = .host (.regWrite c.1 32 v) :: .host (.regRead c.1 32) :: rest →
    ∃ t, Host.Core.run core 2 s = .next t ∧ t.readData = v &&& c.2

/-- R25: the write-one-to-clear rule of STATUS, also while BUSY. -/
def Obligations.StatusWriteOneToClear : Prop :=
  ∀ (s : State) (rest : List Slot) (v : Word), s.rstHeld = false →
    s.inputs = .host (.regWrite 0x04 32 v) :: rest →
    step s = .next { s with inputs := rest, status :=
      { busy := s.status.busy
        done := if v.getLsbD 1 then false else s.status.done
        err := if v.getLsbD 2 then false else s.status.err
        drop := if v.getLsbD 3 then false else s.status.drop
        ecause := if v.getLsbD 2 then 0 else s.status.ecause } }

/-- R33: reserved offsets and reserved bits read as zero and ignore writes. -/
def Obligations.ReservedReadsZeroIgnoresWrites : Prop :=
  (∀ (s : State) (rest : List Slot) (off : Nat) (v : Word), s.rstHeld = false → off % 4 = 0 → 0x30 ≤ off →
    off ≤ 0xFC →
    (s.inputs = .host (.regRead off 32) :: rest → step s = .next { s with inputs := rest, readData := 0 }) ∧
    (s.inputs = .host (.regWrite off 32 v) :: rest → step s = .next { s with inputs := rest })) ∧
  (∀ (s : State) (k : Nat),
    (8 ≤ k → (readReg s .status).getLsbD k = false) ∧ (2 ≤ k → (readReg s .ie).getLsbD k = false) ∧
    (16 ≤ k → (readReg s .alpha).getLsbD k = false ∧ (readReg s .opa).getLsbD k = false ∧
      (readReg s .opb).getLsbD k = false)) ∧
  (∀ (s : State) (v v' : Word),
    (v.extractLsb' 1 3 = v'.extractLsb' 1 3 → writeReg v s .status = writeReg v' s .status) ∧
    (v.extractLsb' 0 2 = v'.extractLsb' 0 2 → writeReg v s .ie = writeReg v' s .ie) ∧
    (v.extractLsb' 0 16 = v'.extractLsb' 0 16 → writeReg v s .alpha = writeReg v' s .alpha ∧
      writeReg v s .opa = writeReg v' s .opa ∧ writeReg v s .opb = writeReg v' s .opb))

/-- Exactly the accesses that are no 32-bit aligned transaction at offsets 0x00 to 0xFC are refused (R20). -/
def Obligations.OutsideInterfaceRefused : Prop :=
  ∀ (s : State) (rest : List Slot) (a : HostAction), s.rstHeld = false → s.inputs = .host a :: rest →
    ((∃ off width, a = .regRead off width) ∨ (∃ off width v, a = .regWrite off width v)) →
    (a.wf s.params = false → step s = .refused .outsideRegisterInterface) ∧
    (a.wf s.params = true → ∃ t, step s = .next t)

/-- R36: the level of `irq`, and that it is low after reset. -/
def Obligations.InterruptLevel : Prop :=
  (∀ s : State, irq s = true ↔
    (s.status.done = true ∧ s.ie.doneIe = true) ∨
    ((s.status.err = true ∨ s.status.drop = true) ∧ s.ie.errIe = true)) ∧
  (∀ p : Params, irq (State.resetWith p) = false)

/-- Who can raise a flag (R35): BUSY only an accepted vector command; DONE only an accepted command or a completing
sequencer step; ERR and ECAUSE only a command word presented while idle; DROP only a command word while BUSY. -/
def Obligations.FlagsRiseOnlyBySetters : Prop :=
  ∀ s t : State, step s = .next t →
    (s.status.busy = false → t.status.busy = true →
      ∃ w rest, s.inputs = cmdSlot w :: rest ∧ (w = encode .axpyB ∨ w = encode .axpyV)) ∧
    (s.status.done = false → t.status.done = true →
      (∃ w rest, s.inputs = cmdSlot w :: rest ∧ s.status.busy = false) ∨
      (sequencerNext s = true ∧ s.status.busy = true ∧ t.status.busy = false)) ∧
    (s.status.err = false → t.status.err = true → ∃ w rest, s.inputs = cmdSlot w :: rest ∧ s.status.busy = false) ∧
    (t.status.ecause ≠ s.status.ecause → t.status.ecause ≠ 0 →
      ∃ w rest, s.inputs = cmdSlot w :: rest ∧ s.status.busy = false) ∧
    (s.status.drop = false → t.status.drop = true → ∃ w rest, s.inputs = cmdSlot w :: rest ∧ s.status.busy = true)

/-- Who can change an operand register or IE (R34): a host write to one of them, or reset. -/
def Obligations.OperandsChangeOnlyByHost : Prop :=
  ∀ s t : State, step s = .next t → t.regs ≠ s.regs ∨ t.ie ≠ s.ie →
    (∃ off v rest, s.inputs = .host (.regWrite off 32 v) :: rest ∧ 0x08 ≤ off ∧ off ≤ 0x28) ∨
    (∃ rest, s.inputs = .host .rstAssert :: rest)

/-- Who can change RESULT (R32): the acceptance of SAT or AXPY1, or reset. -/
def Obligations.ResultChangesOnlyBySatAxpy1 : Prop :=
  ∀ s t : State, step s = .next t → t.result ≠ s.result →
    (∃ w rest, s.inputs = cmdSlot w :: rest ∧ s.status.busy = false ∧ (w = encode .sat ∨ w = encode .axpy1)) ∨
    (∃ rest, s.inputs = .host .rstAssert :: rest)

/-! ### DMEM and the host -/

/-- R62: the byte order of DMEM. -/
def Obligations.LittleEndianElements : Prop :=
  ∀ (m : Memory) (a : Nat) (v : Half),
    read16 m a = readByte m (a + 1) ++ readByte m a ∧
    readByte (write16 m a v) a = v.extractLsb' 0 8 ∧ readByte (write16 m a v) (a + 1) = v.extractLsb' 8 8 ∧
    (∀ b, b ≠ a → b ≠ a + 1 → readByte (write16 m a v) b = readByte m b) ∧
    read16 (write16 m a v) a = v

/-- While no command runs the host reads back the bytes it wrote, and every other byte is unchanged (R60). Where a command
has completed and no read of STATUS has observed it, this is the model's choice, log 16. -/
def Obligations.HostMemoryRoundTrip : Prop :=
  ∀ (s : State) (rest : List Slot) (addr : Nat) (bytes : List Byte), s.rstHeld = false → s.status.busy = false →
    s.inputs = .host (.dmemWrite addr bytes) :: .host (.dmemRead addr bytes.length) :: rest →
    addr + bytes.length ≤ s.params.dmemSize →
    ∃ t, Host.Core.run core 2 s = .next t ∧ t.dmemData = bytes ∧
      (∀ a, a < addr ∨ addr + bytes.length ≤ a → readByte t.mem a = readByte s.mem a) ∧
      t.status = s.status ∧ t.regs = s.regs ∧ t.result = s.result

/-- With `rst` released, a host access to an address at or above DMEM_SIZE faults and every other one has a next state. R60
says only that no such address exists: the fault is the model's choice, log 15 (DEDUCED); while `rst` is held the access is
refused instead (log 4, statement ResetHoldAndRelease). -/
def Obligations.AbsentAddressFaults : Prop :=
  ∀ (s : State) (rest : List Slot) (a : HostAction), s.rstHeld = false → s.inputs = .host a :: rest →
    ((∃ addr count, a = .dmemRead addr count) ∨ (∃ addr bytes, a = .dmemWrite addr bytes)) →
    (a.wf s.params = false → step s = .fault .dmemAddressAbsent) ∧
    (a.wf s.params = true → ∃ t, step s = .next t)

/-- What a host read of any bytes of DMEM gives, and that it changes nothing else of the block. While no command runs, what
DMEM holds (R72; before a read of STATUS has observed completion the model's choice, log 16). While a command runs: outside
`y`, what DMEM holds, which in the `a` and `b` ranges is as at acceptance; in `y`, while the host has kept out of the ranges
(log 8), for each element one pattern, as at acceptance or final, of which the read gives every byte it covers (R66, R73). -/
def Obligations.HostReadsDuringRun : Prop :=
  (∀ (s : State) (rest : List Slot) (addr count : Nat), s.rstHeld = false →
    s.inputs = .host (.dmemRead addr count) :: rest → addr + count ≤ s.params.dmemSize →
    ∃ (d : List Byte) (c : Nat),
      step s = .next { s with inputs := rest, dmemData := d, draws := c } ∧ d.length = count ∧
      (s.status.busy = false → d = (List.range count).map (fun k => readByte s.mem (addr + k))) ∧
      (∀ k, k < count → inVector s.latch.ybase s.latch.n.toNat (addr + k) = false →
        d[k]? = some (readByte s.mem (addr + k))) ∧
      (s.status.busy = true → s.tainted = false → ∀ i, i < s.latch.n.toNat → ∃ h : Half,
        (h = elem16 s.d0 s.latch.ybase i ∨
          h.toInt = axpyElem (elem s.d0 s.latch.abase i) (elem s.d0 s.latch.bbase i) s.latch.alpha.toInt) ∧
        ∀ j k, j < 2 → k < count → addr + k = elemAddr s.latch.ybase i + j →
          d[k]? = some (h.extractLsb' (8 * j) 8))) ∧
  (∀ (s : State) (a : Nat), GoodState s → RunProgress s → s.status.busy = true → s.tainted = false →
    inRunRanges s a = true → inVector s.latch.ybase s.latch.n.toNat a = false → readByte s.mem a = readByte s.d0 a)

/-- A host write during a run stores its bytes, changes no other byte and nothing else of the block (R60). One that keeps out
of all three ranges changes nothing the command uses; one that does not marks the contract as broken (R74, log 8). -/
def Obligations.HostWritesDuringRun : Prop :=
  ∀ (s : State) (rest : List Slot) (addr : Nat) (bytes : List Byte), s.rstHeld = false → s.status.busy = true →
    s.inputs = .host (.dmemWrite addr bytes) :: rest → addr + bytes.length ≤ s.params.dmemSize →
    ∃ (m : Memory) (b : Bool), step s = .next { s with inputs := rest, mem := m, tainted := b } ∧
      (∀ (k : Nat) (h : k < bytes.length), readByte m (addr + k) = bytes[k]) ∧
      (∀ a, a < addr ∨ addr + bytes.length ≤ a → readByte m a = readByte s.mem a) ∧
      ((∀ k, k < bytes.length → inRunRanges s (addr + k) = false) →
        b = s.tainted ∧ ∀ a, inRunRanges s a = true → readByte m a = readByte s.mem a) ∧
      ((∃ k, k < bytes.length ∧ inRunRanges s (addr + k) = true) → b = true)

/-- Who can change a byte of DMEM: a host write that covers it, or, while a command runs and only in its `y` range, the
sequencer or a reset (R61, R201, R202). -/
def Obligations.MemoryChangesOnlyByWriters : Prop :=
  ∀ (s t : State) (a : Nat), GoodState s → step s = .next t → readByte t.mem a ≠ readByte s.mem a →
    (∃ addr bytes rest, s.inputs = .host (.dmemWrite addr bytes) :: rest ∧ addr ≤ a ∧ a < addr + bytes.length) ∨
    (s.status.busy = true ∧ inVector s.latch.ybase s.latch.n.toNat a = true ∧
      (sequencerNext s = true ∨ ∃ rest, s.inputs = .host .rstAssert :: rest))

/-! ### Reset -/

/-- R200: reset clears every register and field; while `rst` is held a register transaction is refused and the sequencer
takes no step; the state after power-on has the same values. -/
def Obligations.ResetClearsBlock : Prop :=
  (∀ (s : State) (rest : List Slot), s.inputs = .host .rstAssert :: rest →
    ∃ t, step s = .next t ∧ t.rstHeld = true ∧ irq t = false ∧
      t.status = { busy := false, done := false, err := false, drop := false, ecause := 0 } ∧
      t.ie = { doneIe := false, errIe := false } ∧
      t.regs = { alpha := 0, len := 0, abase := 0, bbase := 0, ybase := 0, opa := 0, opb := 0, wide := 0 } ∧
      t.result = 0 ∧ t.inputs = rest) ∧
  (∀ (s : State) (rest : List Slot) (off width : Nat) (v : Word), s.rstHeld = true →
    (s.inputs = .host (.regRead off width) :: rest → step s = .refused .hostAccessDuringReset) ∧
    (s.inputs = .host (.regWrite off width v) :: rest → step s = .refused .hostAccessDuringReset)) ∧
  (∀ s : State, s.rstHeld = true → sequencerTurn s = .next s) ∧
  (∀ p : Params, irq (State.resetWith p) = false ∧
    (State.resetWith p).status = { busy := false, done := false, err := false, drop := false, ecause := 0 } ∧
    (State.resetWith p).ie = { doneIe := false, errIe := false } ∧
    (State.resetWith p).regs =
      { alpha := 0, len := 0, abase := 0, bbase := 0, ybase := 0, opa := 0, opb := 0, wide := 0 } ∧
    (State.resetWith p).result = 0)

/-- R201: reset during a run sets no DONE, leaves each element of `y` as at acceptance or final, and changes no other byte;
reset while idle changes no byte (R202). -/
def Obligations.ResetDuringRun : Prop :=
  (∀ (s : State) (rest : List Slot), s.status.busy = true → s.tainted = false →
    s.inputs = .host .rstAssert :: rest →
    ∃ t, step s = .next t ∧ t.status.busy = false ∧ t.status.done = false ∧
      (∀ i, i < s.latch.n.toNat → elem16 t.mem s.latch.ybase i = elem16 s.d0 s.latch.ybase i ∨
        elem t.mem s.latch.ybase i =
          axpyElem (elem s.d0 s.latch.abase i) (elem s.d0 s.latch.bbase i) s.latch.alpha.toInt) ∧
      (∀ a, inVector s.latch.ybase s.latch.n.toNat a = false → readByte t.mem a = readByte s.mem a)) ∧
  (∀ (s t : State) (rest : List Slot), s.status.busy = false → s.inputs = .host .rstAssert :: rest →
    step s = .next t → t.mem = s.mem)

/-! ### The hold of reset, the platform address, and the falls of the flags -/

/-- How long `rst` is held, the model's choice of log 4: it is released by one action, which changes nothing else, and by
nothing but that action; until then every host access, to a register or to DMEM, is refused (R200, R211). -/
def Obligations.ResetHoldAndRelease : Prop :=
  (∀ (s : State) (rest : List Slot), s.inputs = .host .rstRelease :: rest →
    step s = .next { s with inputs := rest, rstHeld := false }) ∧
  (∀ (s : State) (rest : List Slot) (a : HostAction), s.rstHeld = true → s.inputs = .host a :: rest →
    a ≠ .rstAssert → a ≠ .rstRelease → step s = .refused .hostAccessDuringReset) ∧
  (∀ s t : State, step s = .next t → s.rstHeld = true → t.rstHeld = false →
    ∃ rest, s.inputs = .host .rstRelease :: rest) ∧
  (∀ s t : State, step s = .next t → s.rstHeld = false → t.rstHeld = true → resets s)

/-- `REG_BASE` only places the register space (R7, R20, R44): no step's outcome depends on it, and an offset below 0x100 and
its platform address name each other. -/
def Obligations.RegBaseOnlyPlaces : Prop :=
  (∀ (s : State) (b : Nat), step (s.withRegBase b) = mapNext (State.withRegBase b) (step s)) ∧
  (∀ (p : Params) (addr off : Nat),
    registerOffset p addr = some off ↔ off < 0x100 ∧ addr = registerAddress p off)

/-- Who can lower a flag (R25, R35, R116, R121): BUSY only the sequencer step that reaches `L.n`, which sets DONE, or reset;
DONE, ERR and ECAUSE only the host's write of STATUS, a command word presented while idle, or reset; DROP only the host's
write of STATUS or reset. -/
def Obligations.FlagsFallOnlyByClearers : Prop :=
  ∀ s t : State, step s = .next t →
    (s.status.busy = true → t.status.busy = false →
      (sequencerNext s = true ∧ t.idx = s.latch.n.toNat ∧ t.status.done = true) ∨ resets s) ∧
    (s.status.done = true → t.status.done = false → clearsStatusBit s 1 ∨ acceptsWord s ∨ resets s) ∧
    (s.status.err = true → t.status.err = false → clearsStatusBit s 2 ∨ acceptsWord s ∨ resets s) ∧
    (s.status.ecause ≠ 0 → t.status.ecause = 0 → clearsStatusBit s 2 ∨ acceptsWord s ∨ resets s) ∧
    (s.status.drop = true → t.status.drop = false → clearsStatusBit s 3 ∨ resets s)
end

