-- ==== Sys2Proof/Laws/Arith.lean ====
section
/-! SUPPORT. The ranges of the arithmetic, and how its integers and its bit patterns agree. -/

namespace Sys2Proof.Machine

theorem q15Sat_bounds (v : Int) : -32768 ≤ q15Sat v ∧ q15Sat v ≤ 32767 := by
  unfold q15Sat; split_ifs <;> omega

theorem axpyElem_bounds (a b alpha : Int) : -32768 ≤ axpyElem a b alpha ∧ axpyElem a b alpha ≤ 32767 :=
  q15Sat_bounds _

theorem half_toInt_bounds (v : Half) : -32768 ≤ v.toInt ∧ v.toInt ≤ 32767 := by
  have h := BitVec.toInt_lt (x := v)
  have h' := BitVec.le_toInt v
  omega

theorem word_toInt_bounds (v : Word) : -2147483648 ≤ v.toInt ∧ v.toInt ≤ 2147483647 := by
  have h := BitVec.toInt_lt (x := v)
  have h' := BitVec.le_toInt v
  omega

/-- `sint(bits16(r)) = r` for a Q15 integer (00_scope.md R9). -/
theorem toInt_ofInt_half {r : Int} (h : -32768 ≤ r) (h' : r ≤ 32767) : (BitVec.ofInt 16 r).toInt = r := by
  rw [BitVec.toInt_ofInt]; exact Int.bmod_eq_of_le (by omega) (by omega)

/-- `sint(bits32(r)) = r` for a 32-bit integer (R9). -/
theorem toInt_ofInt_word {r : Int} (h : -2147483648 ≤ r) (h' : r ≤ 2147483647) : (BitVec.ofInt 32 r).toInt = r := by
  rw [BitVec.toInt_ofInt]; exact Int.bmod_eq_of_le (by omega) (by omega)

@[simp] theorem toInt_q15SaturationClamp (v : Word) : (q15SaturationClamp v).toInt = q15Sat v.toInt :=
  toInt_ofInt_half (q15Sat_bounds _).1 (q15Sat_bounds _).2

/-- A computed element, read back as an integer, is the element function of the input elements. -/
@[simp] theorem toInt_elemResult (m : Memory) (l : Latch) (i : Nat) :
    (elemResult m l i).toInt = axpyElem (elem m l.abase i) (elem m l.bbase i) l.alpha.toInt :=
  toInt_ofInt_half (axpyElem_bounds _ _ _).1 (axpyElem_bounds _ _ _).2

/-- A sign-extended Q15 pattern is the sign extension of its own low half. -/
theorem signExtend_q15 (r : Half) : (r.signExtend 32) = ((r.signExtend 32).setWidth 16).signExtend 32 := by
  congr 1
  ext i hi
  rw [BitVec.getElem_setWidth, BitVec.getLsbD_signExtend]
  simp [hi, show i < 32 by omega]

end Sys2Proof.Machine
end

