-- ==== Sys2Proof/Laws/Memory.lean ====
section
/-! SUPPORT. The laws of DMEM: what a read sees after a write, and that every write keeps the canonical form. -/

namespace Sys2Proof.Machine

theorem lookup_writeByte (m : Memory) (a b : Nat) (v : Byte) :
    lookup (writeByte m a v) b = if b = a then some v else lookup m b := by
  induction m with
  | nil => simp [writeByte, lookup]
  | cons c m ih =>
    obtain ⟨x, w⟩ := c
    rw [writeByte]
    by_cases h1 : a < x
    · simp [h1, lookup]
    · by_cases h2 : a = x
      · subst h2; by_cases h3 : b = a <;> simp [lookup, h3]
      · by_cases h3 : b = x
        · subst h3; simp [h1, h2, lookup, Ne.symm h2]
        · simp [h1, h2, h3, lookup, ih]

@[simp] theorem readByte_writeByte (m : Memory) (a b : Nat) (v : Byte) :
    readByte (writeByte m a v) b = if b = a then v else readByte m b := by
  simp only [readByte, lookup_writeByte]; split_ifs <;> rfl

theorem readByte_write16 (m : Memory) (a b : Nat) (v : Half) :
    readByte (write16 m a v) b =
      if b = a + 1 then v.extractLsb' 8 8 else if b = a then v.extractLsb' 0 8 else readByte m b := by
  simp only [write16, readByte_writeByte]

theorem half_of_bytes (v : Half) : v.extractLsb' 8 8 ++ v.extractLsb' 0 8 = v := by
  ext i hi
  simp only [BitVec.getElem_append, BitVec.getElem_extractLsb']
  split_ifs with h
  · simp [BitVec.getLsbD_eq_getElem hi]
  · rw [show 8 + (i - 8) = i by omega, BitVec.getLsbD_eq_getElem hi]

@[simp] theorem read16_write16_same (m : Memory) (a : Nat) (v : Half) : read16 (write16 m a v) a = v := by
  simp [read16, readByte_write16, half_of_bytes]

theorem read16_congr {m n : Memory} {a : Nat} (h0 : readByte m a = readByte n a)
    (h1 : readByte m (a + 1) = readByte n (a + 1)) : read16 m a = read16 n a := by simp [read16, h0, h1]

theorem read16_write16_disjoint (m : Memory) {a b : Nat} (v : Half) (h : b + 1 < a ∨ a + 1 < b) :
    read16 (write16 m a v) b = read16 m b := by
  apply read16_congr <;> rw [readByte_write16] <;> split_ifs <;> first | rfl | omega

theorem elem16_congr {m n : Memory} {base : Word} {i : Nat}
    (h : ∀ a, a = elemAddr base i ∨ a = elemAddr base i + 1 → readByte m a = readByte n a) :
    elem16 m base i = elem16 n base i :=
  read16_congr (h _ (.inl rfl)) (h _ (.inr rfl))

theorem elemResult_congr {m n : Memory} {l : Latch} {i : Nat} (ha : elem16 m l.abase i = elem16 n l.abase i)
    (hb : elem16 m l.bbase i = elem16 n l.bbase i) : elemResult m l i = elemResult n l i := by
  simp [elemResult, elem, ha, hb]

/-! ### Writing several elements -/

@[simp] theorem writeElems_nil (base : Word) (f : Nat → Half) (m : Memory) : writeElems base f [] m = m := rfl

@[simp] theorem writeElems_cons (base : Word) (f : Nat → Half) (i : Nat) (is : List Nat) (m : Memory) :
    writeElems base f (i :: is) m = writeElems base f is (write16 m (elemAddr base i) (f i)) := rfl

/-- A byte of no written element is unchanged. -/
theorem readByte_writeElems_of_not_mem (base : Word) (f : Nat → Half) (is : List Nat) (m : Memory) (a : Nat)
    (h : ∀ i ∈ is, a ≠ elemAddr base i ∧ a ≠ elemAddr base i + 1) :
    readByte (writeElems base f is m) a = readByte m a := by
  induction is generalizing m with
  | nil => rfl
  | cons i is ih =>
    rw [writeElems_cons, ih _ (fun j hj => h j (List.mem_cons_of_mem _ hj)), readByte_write16,
      if_neg (h i List.mem_cons_self).2, if_neg (h i List.mem_cons_self).1]

/-- A written element holds its new pattern, whatever the order. -/
theorem elem16_writeElems_of_mem (base : Word) (f : Nat → Half) (is : List Nat) (m : Memory) (i : Nat) (h : i ∈ is) :
    elem16 (writeElems base f is m) base i = f i := by
  induction is generalizing m with
  | nil => simp at h
  | cons j is ih =>
    rw [writeElems_cons]
    by_cases hi : i ∈ is
    · exact ih _ hi
    · obtain rfl : i = j := by simpa [hi] using h
      refine .trans ?_ (read16_write16_same m (elemAddr base i) (f i))
      refine elem16_congr (base := base) fun a ha => readByte_writeElems_of_not_mem _ _ _ _ _ fun k hk => ?_
      have : k ≠ i := fun e => hi (e ▸ hk)
      simp only [elemAddr] at ha ⊢
      omega

/-! ### The canonical form -/

theorem mem_writeByte {m : Memory} {a : Nat} {v : Byte} {c : Host.Cell} (h : c ∈ writeByte m a v) :
    c = (a, v) ∨ c ∈ m := by
  induction m with
  | nil => simpa [writeByte] using h
  | cons d m ih =>
    simp only [writeByte] at h
    split_ifs at h <;> simp only [List.mem_cons] at h ⊢
    · tauto
    · tauto
    · rcases h with h | h
      · tauto
      · rcases ih h with h | h <;> tauto

theorem writeByte_wf {m : Memory} (h : Memory.wf m) (a : Nat) (v : Byte) : Memory.wf (writeByte m a v) := by
  induction m with
  | nil => simp [writeByte]
  | cons d m ih =>
    rw [Memory.wf, List.pairwise_cons] at h
    simp only [writeByte]
    split_ifs with h1 h2
    · refine List.pairwise_cons.2 ⟨fun c hc => ?_, List.pairwise_cons.2 h⟩
      rcases List.mem_cons.1 hc with rfl | hc
      · exact h1
      · exact h1.trans (h.1 c hc)
    · exact List.pairwise_cons.2 ⟨fun c hc => h2 ▸ h.1 c hc, h.2⟩
    · refine List.pairwise_cons.2 ⟨fun c hc => ?_, ih h.2⟩
      rcases mem_writeByte hc with rfl | hc
      · simp only; omega
      · exact h.1 c hc

theorem write16_wf {m : Memory} (h : Memory.wf m) (a : Nat) (v : Half) : Memory.wf (write16 m a v) :=
  writeByte_wf (writeByte_wf h _ _) _ _

theorem writeBytes_wf {m : Memory} (h : Memory.wf m) (a : Nat) (vs : List Byte) : Memory.wf (writeBytes m a vs) := by
  induction vs generalizing m a with
  | nil => exact h
  | cons v vs ih => exact ih (writeByte_wf h a v) (a + 1)

theorem writeElems_wf {m : Memory} (h : Memory.wf m) (base : Word) (f : Nat → Half) (is : List Nat) :
    Memory.wf (writeElems base f is m) := by
  induction is generalizing m with
  | nil => exact h
  | cons i is ih => exact ih (write16_wf h _ _)

theorem lookup_of_lt_all {m : Memory} {a : Nat} (h : ∀ c ∈ m, a < c.1) : lookup m a = none := by
  induction m with
  | nil => rfl
  | cons c m ih =>
    have := h c List.mem_cons_self
    rw [lookup, if_neg (by omega), ih fun d hd => h d (List.mem_cons_of_mem _ hd)]

/-- Canonical memories that hold the same bytes are the same list. -/
theorem memory_ext {m n : Memory} (hm : Memory.wf m) (hn : Memory.wf n) (h : ∀ a, lookup m a = lookup n a) : m = n := by
  induction m generalizing n with
  | nil =>
    cases n with
    | nil => rfl
    | cons d n => simpa [lookup] using h d.1
  | cons c m ih =>
    rw [Memory.wf, List.pairwise_cons] at hm
    cases n with
    | nil => simpa [lookup] using h c.1
    | cons d n =>
      rw [Memory.wf, List.pairwise_cons] at hn
      have hc : c.1 = d.1 := by
        rcases lt_trichotomy c.1 d.1 with hlt | heq | hgt
        · have h1 := h c.1
          rw [lookup_of_lt_all (m := d :: n)] at h1
          · simp [lookup] at h1
          · intro e he
            rcases List.mem_cons.1 he with rfl | he
            · exact hlt
            · exact hlt.trans (hn.1 e he)
        · exact heq
        · have h1 := h d.1
          rw [lookup_of_lt_all (m := c :: m)] at h1
          · simp [lookup] at h1
          · intro e he
            rcases List.mem_cons.1 he with rfl | he
            · exact hgt
            · exact hgt.trans (hm.1 e he)
      have hv : c.2 = d.2 := by simpa [lookup, hc] using h c.1
      obtain rfl : c = d := Prod.ext hc hv
      congr 1
      refine ih hm.2 hn.2 fun a => ?_
      by_cases ha : a = c.1
      · rw [lookup_of_lt_all fun e he => ha ▸ hm.1 e he, lookup_of_lt_all fun e he => ha ▸ hn.1 e he]
      · simpa [lookup, ha] using h a

/-! ### Addresses -/

theorem writeByte_inside {p : Nat} {m : Memory} {a : Nat} (v : Byte) (h : ∀ c ∈ m, c.1 < p) (ha : a < p) :
    ∀ c ∈ writeByte m a v, c.1 < p := fun c hc => by
  rcases mem_writeByte hc with rfl | hc
  · exact ha
  · exact h c hc

theorem write16_inside {p : Nat} {m : Memory} {a : Nat} (v : Half) (h : ∀ c ∈ m, c.1 < p) (ha : a + 1 < p) :
    ∀ c ∈ write16 m a v, c.1 < p :=
  writeByte_inside _ (writeByte_inside _ h (by omega)) ha

theorem writeBytes_inside {p : Nat} {m : Memory} {a : Nat} (vs : List Byte) (h : ∀ c ∈ m, c.1 < p)
    (ha : a + vs.length ≤ p) : ∀ c ∈ writeBytes m a vs, c.1 < p := by
  induction vs generalizing m a with
  | nil => exact h
  | cons v vs ih =>
    simp only [List.length_cons] at ha
    exact ih (writeByte_inside v h (by omega)) (by omega)

theorem writeElems_inside {p : Nat} {m : Memory} {base : Word} (f : Nat → Half) (is : List Nat)
    (h : ∀ c ∈ m, c.1 < p) (hi : ∀ i ∈ is, elemAddr base i + 1 < p) : ∀ c ∈ writeElems base f is m, c.1 < p := by
  induction is generalizing m with
  | nil => exact h
  | cons i is ih =>
    exact ih (write16_inside _ h (hi i List.mem_cons_self)) fun j hj => hi j (List.mem_cons_of_mem _ hj)

theorem readByte_writeBytes_of_outside (m : Memory) (a b : Nat) (vs : List Byte) (h : b < a ∨ a + vs.length ≤ b) :
    readByte (writeBytes m a vs) b = readByte m b := by
  induction vs generalizing m a with
  | nil => rfl
  | cons v vs ih =>
    simp only [List.length_cons] at h
    rw [writeBytes, ih _ _ (by omega), readByte_writeByte, if_neg (by omega)]

theorem readByte_writeBytes_of_inside (m : Memory) (a k : Nat) (vs : List Byte) (h : k < vs.length) :
    readByte (writeBytes m a vs) (a + k) = vs[k] := by
  induction vs generalizing m a k with
  | nil => simp at h
  | cons v vs ih =>
    cases k with
    | zero => rw [writeBytes, readByte_writeBytes_of_outside _ _ _ _ (by omega)]; simp
    | succ k =>
      rw [writeBytes, show a + (k + 1) = a + 1 + k by omega, ih _ _ _ (by simpa using h)]; simp

end Sys2Proof.Machine
end

