-- ==== Sys2Proof/Laws/State.lean ====
section
/-! SUPPORT. One lemma per field of State for each shared state operation, so that no proof unfolds a record update. -/

namespace Sys2Proof.Machine

variable (s : State)

@[simp] theorem dropCommand_status : (dropCommand s).status = { s.status with drop := true } := rfl
@[simp] theorem dropCommand_ie : (dropCommand s).ie = s.ie := rfl
@[simp] theorem dropCommand_regs : (dropCommand s).regs = s.regs := rfl
@[simp] theorem dropCommand_result : (dropCommand s).result = s.result := rfl
@[simp] theorem dropCommand_latch : (dropCommand s).latch = s.latch := rfl
@[simp] theorem dropCommand_idx : (dropCommand s).idx = s.idx := rfl
@[simp] theorem dropCommand_mem : (dropCommand s).mem = s.mem := rfl
@[simp] theorem dropCommand_rstHeld : (dropCommand s).rstHeld = s.rstHeld := rfl
@[simp] theorem dropCommand_params : (dropCommand s).params = s.params := rfl
@[simp] theorem dropCommand_d0 : (dropCommand s).d0 = s.d0 := rfl
@[simp] theorem dropCommand_tainted : (dropCommand s).tainted = s.tainted := rfl
@[simp] theorem dropCommand_draws : (dropCommand s).draws = s.draws := rfl
@[simp] theorem dropCommand_inputs : (dropCommand s).inputs = s.inputs := rfl
@[simp] theorem dropCommand_readData : (dropCommand s).readData = s.readData := rfl
@[simp] theorem dropCommand_dmemData : (dropCommand s).dmemData = s.dmemData := rfl

@[simp] theorem clearForAcceptance_status : (clearForAcceptance s).status = { s.status with done := false, err := false, ecause := 0 } := rfl
@[simp] theorem clearForAcceptance_ie : (clearForAcceptance s).ie = s.ie := rfl
@[simp] theorem clearForAcceptance_regs : (clearForAcceptance s).regs = s.regs := rfl
@[simp] theorem clearForAcceptance_result : (clearForAcceptance s).result = s.result := rfl
@[simp] theorem clearForAcceptance_latch : (clearForAcceptance s).latch = s.latch := rfl
@[simp] theorem clearForAcceptance_idx : (clearForAcceptance s).idx = s.idx := rfl
@[simp] theorem clearForAcceptance_mem : (clearForAcceptance s).mem = s.mem := rfl
@[simp] theorem clearForAcceptance_rstHeld : (clearForAcceptance s).rstHeld = s.rstHeld := rfl
@[simp] theorem clearForAcceptance_params : (clearForAcceptance s).params = s.params := rfl
@[simp] theorem clearForAcceptance_d0 : (clearForAcceptance s).d0 = s.d0 := rfl
@[simp] theorem clearForAcceptance_tainted : (clearForAcceptance s).tainted = s.tainted := rfl
@[simp] theorem clearForAcceptance_draws : (clearForAcceptance s).draws = s.draws := rfl
@[simp] theorem clearForAcceptance_inputs : (clearForAcceptance s).inputs = s.inputs := rfl
@[simp] theorem clearForAcceptance_readData : (clearForAcceptance s).readData = s.readData := rfl
@[simp] theorem clearForAcceptance_dmemData : (clearForAcceptance s).dmemData = s.dmemData := rfl

@[simp] theorem reject_status (c : Cause) : (reject c s).status = { s.status with err := true, ecause := causeCode c } := rfl
@[simp] theorem reject_ie (c : Cause) : (reject c s).ie = s.ie := rfl
@[simp] theorem reject_regs (c : Cause) : (reject c s).regs = s.regs := rfl
@[simp] theorem reject_result (c : Cause) : (reject c s).result = s.result := rfl
@[simp] theorem reject_latch (c : Cause) : (reject c s).latch = s.latch := rfl
@[simp] theorem reject_idx (c : Cause) : (reject c s).idx = s.idx := rfl
@[simp] theorem reject_mem (c : Cause) : (reject c s).mem = s.mem := rfl
@[simp] theorem reject_rstHeld (c : Cause) : (reject c s).rstHeld = s.rstHeld := rfl
@[simp] theorem reject_params (c : Cause) : (reject c s).params = s.params := rfl
@[simp] theorem reject_d0 (c : Cause) : (reject c s).d0 = s.d0 := rfl
@[simp] theorem reject_tainted (c : Cause) : (reject c s).tainted = s.tainted := rfl
@[simp] theorem reject_draws (c : Cause) : (reject c s).draws = s.draws := rfl
@[simp] theorem reject_inputs (c : Cause) : (reject c s).inputs = s.inputs := rfl
@[simp] theorem reject_readData (c : Cause) : (reject c s).readData = s.readData := rfl
@[simp] theorem reject_dmemData (c : Cause) : (reject c s).dmemData = s.dmemData := rfl

@[simp] theorem setDone_status : (setDone s).status = { s.status with done := true } := rfl
@[simp] theorem setDone_ie : (setDone s).ie = s.ie := rfl
@[simp] theorem setDone_regs : (setDone s).regs = s.regs := rfl
@[simp] theorem setDone_result : (setDone s).result = s.result := rfl
@[simp] theorem setDone_latch : (setDone s).latch = s.latch := rfl
@[simp] theorem setDone_idx : (setDone s).idx = s.idx := rfl
@[simp] theorem setDone_mem : (setDone s).mem = s.mem := rfl
@[simp] theorem setDone_rstHeld : (setDone s).rstHeld = s.rstHeld := rfl
@[simp] theorem setDone_params : (setDone s).params = s.params := rfl
@[simp] theorem setDone_d0 : (setDone s).d0 = s.d0 := rfl
@[simp] theorem setDone_tainted : (setDone s).tainted = s.tainted := rfl
@[simp] theorem setDone_draws : (setDone s).draws = s.draws := rfl
@[simp] theorem setDone_inputs : (setDone s).inputs = s.inputs := rfl
@[simp] theorem setDone_readData : (setDone s).readData = s.readData := rfl
@[simp] theorem setDone_dmemData : (setDone s).dmemData = s.dmemData := rfl

@[simp] theorem writeResult_status (r : Half) : (writeResult r s).status = s.status := rfl
@[simp] theorem writeResult_ie (r : Half) : (writeResult r s).ie = s.ie := rfl
@[simp] theorem writeResult_regs (r : Half) : (writeResult r s).regs = s.regs := rfl
@[simp] theorem writeResult_result (r : Half) : (writeResult r s).result = r.signExtend 32 := rfl
@[simp] theorem writeResult_latch (r : Half) : (writeResult r s).latch = s.latch := rfl
@[simp] theorem writeResult_idx (r : Half) : (writeResult r s).idx = s.idx := rfl
@[simp] theorem writeResult_mem (r : Half) : (writeResult r s).mem = s.mem := rfl
@[simp] theorem writeResult_rstHeld (r : Half) : (writeResult r s).rstHeld = s.rstHeld := rfl
@[simp] theorem writeResult_params (r : Half) : (writeResult r s).params = s.params := rfl
@[simp] theorem writeResult_d0 (r : Half) : (writeResult r s).d0 = s.d0 := rfl
@[simp] theorem writeResult_tainted (r : Half) : (writeResult r s).tainted = s.tainted := rfl
@[simp] theorem writeResult_draws (r : Half) : (writeResult r s).draws = s.draws := rfl
@[simp] theorem writeResult_inputs (r : Half) : (writeResult r s).inputs = s.inputs := rfl
@[simp] theorem writeResult_readData (r : Half) : (writeResult r s).readData = s.readData := rfl
@[simp] theorem writeResult_dmemData (r : Half) : (writeResult r s).dmemData = s.dmemData := rfl

@[simp] theorem latchOperands_status (op : VecOp) : (latchOperands op s).status = s.status := rfl
@[simp] theorem latchOperands_ie (op : VecOp) : (latchOperands op s).ie = s.ie := rfl
@[simp] theorem latchOperands_regs (op : VecOp) : (latchOperands op s).regs = s.regs := rfl
@[simp] theorem latchOperands_result (op : VecOp) : (latchOperands op s).result = s.result := rfl
@[simp] theorem latchOperands_latch (op : VecOp) : (latchOperands op s).latch = latchedRecord op s := rfl
@[simp] theorem latchOperands_idx (op : VecOp) : (latchOperands op s).idx = s.idx := rfl
@[simp] theorem latchOperands_mem (op : VecOp) : (latchOperands op s).mem = s.mem := rfl
@[simp] theorem latchOperands_rstHeld (op : VecOp) : (latchOperands op s).rstHeld = s.rstHeld := rfl
@[simp] theorem latchOperands_params (op : VecOp) : (latchOperands op s).params = s.params := rfl
@[simp] theorem latchOperands_d0 (op : VecOp) : (latchOperands op s).d0 = s.d0 := rfl
@[simp] theorem latchOperands_tainted (op : VecOp) : (latchOperands op s).tainted = s.tainted := rfl
@[simp] theorem latchOperands_draws (op : VecOp) : (latchOperands op s).draws = s.draws := rfl
@[simp] theorem latchOperands_inputs (op : VecOp) : (latchOperands op s).inputs = s.inputs := rfl
@[simp] theorem latchOperands_readData (op : VecOp) : (latchOperands op s).readData = s.readData := rfl
@[simp] theorem latchOperands_dmemData (op : VecOp) : (latchOperands op s).dmemData = s.dmemData := rfl

@[simp] theorem resetBlock_status : (resetBlock s).status = Status.reset := rfl
@[simp] theorem resetBlock_ie : (resetBlock s).ie = IntEnable.reset := rfl
@[simp] theorem resetBlock_regs : (resetBlock s).regs = OperandRegs.reset := rfl
@[simp] theorem resetBlock_result : (resetBlock s).result = 0 := rfl
@[simp] theorem resetBlock_latch : (resetBlock s).latch = Latch.reset := rfl
@[simp] theorem resetBlock_idx : (resetBlock s).idx = 0 := rfl
@[simp] theorem resetBlock_mem : (resetBlock s).mem = s.mem := rfl
@[simp] theorem resetBlock_rstHeld : (resetBlock s).rstHeld = s.rstHeld := rfl
@[simp] theorem resetBlock_params : (resetBlock s).params = s.params := rfl
@[simp] theorem resetBlock_d0 : (resetBlock s).d0 = [] := rfl
@[simp] theorem resetBlock_tainted : (resetBlock s).tainted = false := rfl
@[simp] theorem resetBlock_draws : (resetBlock s).draws = s.draws := rfl
@[simp] theorem resetBlock_inputs : (resetBlock s).inputs = s.inputs := rfl
@[simp] theorem resetBlock_readData : (resetBlock s).readData = s.readData := rfl
@[simp] theorem resetBlock_dmemData : (resetBlock s).dmemData = s.dmemData := rfl

end Sys2Proof.Machine
end

