-- ==== Sys2Proof/Laws/Ops.lean ====
section
/-! SUPPORT. What each shared operation can do: validation, acceptance, completion and the sequencer steps. -/

namespace Sys2Proof.Machine

/-! ### Validation -/

theorem partialOverlap_iff (p q n : Nat) : partialOverlap p q n = true ↔ p ≠ q ∧ p < q + 2 * n ∧ q < p + 2 * n := by
  simp [partialOverlap, and_assoc]

/-- What a record that passes validation satisfies (R112): even bases, ranges inside DMEM, no partial overlap of `y`. -/
theorem validate_none_iff (p : Params) (n ab bb yb : Nat) : validate p n ab bb yb = none ↔
    (ab % 2 = 0 ∧ bb % 2 = 0 ∧ yb % 2 = 0) ∧
    (ab + 2 * n ≤ p.dmemSize ∧ bb + 2 * n ≤ p.dmemSize ∧ yb + 2 * n ≤ p.dmemSize) ∧
    ¬(yb ≠ ab ∧ yb < ab + 2 * n ∧ ab < yb + 2 * n) ∧ ¬(yb ≠ bb ∧ yb < bb + 2 * n ∧ bb < yb + 2 * n) := by
  unfold validate
  simp only [partialOverlap_iff]
  split_ifs with h1 h2 h3
  · exact ⟨nofun, fun h => absurd h1 (by omega)⟩
  · exact ⟨nofun, fun h => absurd h2 (by omega)⟩
  · exact ⟨nofun, fun h => by tauto⟩
  · exact ⟨fun _ => ⟨by omega, by omega, by tauto⟩, fun _ => rfl⟩

/-! ### Acceptance -/

@[simp] theorem present_busy {body : State → State} {s : State} (h : s.status.busy = true) :
    present body s = .next (dropCommand s) := by simp [present, h]

@[simp] theorem present_idle {body : State → State} {s : State} (h : s.status.busy = false) :
    present body s = .next (body (clearForAcceptance s)) := by simp [present, h]

/-- `start()` answers one of two states (R115). -/
theorem startVector_spec (s : State) :
    (s.latch.n.toNat = 0 ∧ startVector s = setDone s) ∨
    (0 < s.latch.n.toNat ∧ startVector s =
      { s with idx := 0, status := { s.status with busy := true }, d0 := s.mem, tainted := false }) := by
  unfold startVector; split_ifs with h
  · exact .inl ⟨h, rfl⟩
  · exact .inr ⟨by omega, rfl⟩

/-- All an accepted command of any kind can do, and all a dropped one does. -/
theorem exec_spec (i : Instr) (s : State) :
    (s.status.busy = true ∧ exec i s = .next { s with status := s.status.dropped }) ∨
    (s.status.busy = false ∧ i = .nop ∧ exec i s = .next { s with status := s.status.completed }) ∨
    (s.status.busy = false ∧ (i = .sat ∨ i = .axpy1) ∧
      ∃ r : Half, exec i s = .next { s with result := r.signExtend 32, status := s.status.completed }) ∨
    (∃ op : VecOp, i = op.instr ∧ s.status.busy = false ∧
      ((∃ c, operandCause s = some c ∧ exec i s = .next { s with status := s.status.rejected c }) ∨
       (operandCause s = none ∧ s.regs.len.toNat = 0 ∧
         exec i s = .next { s with latch := latchedRecord op s, status := s.status.completed }) ∨
       (operandCause s = none ∧ 0 < s.regs.len.toNat ∧
         exec i s = .next { s with latch := latchedRecord op s, idx := 0, status := s.status.started
                                   d0 := s.mem, tainted := false }))) := by
  cases hb : s.status.busy with
  | true =>
    refine .inl ⟨rfl, ?_⟩
    cases i <;> simp only [exec, execNop, execSat, execAxpy1, execAxpyB, execAxpyV] <;> exact present_busy hb
  | false =>
    have vec : ∀ op : VecOp,
        (∃ c, operandCause s = some c ∧ acceptVector op (clearForAcceptance s) = { s with status := s.status.rejected c }) ∨
        (operandCause s = none ∧ s.regs.len.toNat = 0 ∧ acceptVector op (clearForAcceptance s) =
          { s with latch := latchedRecord op s, status := s.status.completed }) ∨
        (operandCause s = none ∧ 0 < s.regs.len.toNat ∧ acceptVector op (clearForAcceptance s) =
          { s with latch := latchedRecord op s, idx := 0, status := s.status.started, d0 := s.mem, tainted := false }) := by
      intro op
      have hc : acceptVector op (clearForAcceptance s) = match operandCause s with
        | some c => reject c (clearForAcceptance s)
        | none => startVector (latchOperands op (clearForAcceptance s)) := rfl
      rcases h : operandCause s with _ | c
      · right
        rcases startVector_spec (latchOperands op (clearForAcceptance s)) with ⟨h0, he⟩ | ⟨h0, he⟩
        · exact .inl ⟨rfl, h0, by rw [hc, h]; exact he⟩
        · exact .inr ⟨rfl, h0, by rw [hc, h]; exact he⟩
      · exact .inl ⟨c, rfl, by rw [hc, h]; rfl⟩
    right
    cases i with
    | nop => exact .inl ⟨rfl, rfl, present_idle hb⟩
    | sat => exact .inr (.inl ⟨rfl, .inl rfl, q15SaturationClamp s.regs.wide, by
        rw [exec, execSat, present_idle hb]; rfl⟩)
    | axpy1 => exact .inr (.inl ⟨rfl, .inr rfl,
        BitVec.ofInt 16 (axpyElem (operandA s) (operandB s) (operandAlpha s)), by
        rw [exec, execAxpy1, present_idle hb]; rfl⟩)
    | axpyB =>
      have he : exec .axpyB s = .next (acceptVector .axpyB (clearForAcceptance s)) := present_idle hb
      exact .inr (.inr ⟨.axpyB, rfl, rfl, by simpa only [he, Host.Outcome.next.injEq] using vec .axpyB⟩)
    | axpyV =>
      have he : exec .axpyV s = .next (acceptVector .axpyV (clearForAcceptance s)) := present_idle hb
      exact .inr (.inr ⟨.axpyV, rfl, rfl, by simpa only [he, Host.Outcome.next.injEq] using vec .axpyV⟩)

/-! ### The sequencer -/

theorem settleBroken_of_kept {s : State} (h : s.tainted = false) : settleBroken s = s := by simp [settleBroken, h]

/-- The end of a sequencer step while the host has kept out of the ranges. -/
theorem finishStep_of_kept {s : State} (h : s.tainted = false) : finishStep s =
    { s with status := if s.idx = s.latch.n.toNat then { s.status with busy := false, done := true } else s.status } := by
  unfold finishStep completeVector
  split_ifs
  · rw [settleBroken_of_kept h]
  · rfl

/-- The end of a sequencer step in every case: only DMEM (inside `y`), STATUS and the draws can change. -/
theorem finishStep_spec (s : State) :
    finishStep s = { s with
      mem := (finishStep s).mem, draws := (finishStep s).draws
      status := if s.idx = s.latch.n.toNat then { s.status with busy := false, done := true } else s.status } ∧
    ((finishStep s).mem = s.mem ∨ ((finishStep s).mem =
      writeElems s.latch.ybase (Config.brokenElement s.draws) (List.range s.latch.n.toNat) s.mem ∧
      s.idx = s.latch.n.toNat ∧ s.tainted = true)) := by
  unfold finishStep
  by_cases h1 : s.idx = s.latch.n.toNat
  · rw [if_pos h1, if_pos h1]
    unfold completeVector settleBroken
    by_cases h2 : s.tainted = true
    · rw [if_pos h2]; exact ⟨rfl, .inr ⟨rfl, h1, h2⟩⟩
    · rw [if_neg h2]; exact ⟨rfl, .inl rfl⟩
  · rw [if_neg h1, if_neg h1]; exact ⟨rfl, .inl rfl⟩

/-- The lane step as the writing of its elements; the element step is the case of one element. -/
theorem stepB_eq_writeElems (s : State) : stepB s = if runInDmem s (s.idx + 1) = true then
    .next (finishStep { s with mem := laneWrites s [s.idx], idx := s.idx + 1 }) else .fault .dmemAddressAbsent := rfl

theorem mem_laneElems {s : State} {i : Nat} : i ∈ laneElems s ↔ s.idx ≤ i ∧ i < s.idx + laneCount s := by
  simp only [laneElems, List.mem_map, List.mem_range]
  constructor
  · rintro ⟨j, hj, rfl⟩; omega
  · rintro ⟨h1, h2⟩; exact ⟨i - s.idx, by omega, by omega⟩

/-- How many elements the next sequencer step processes (R150, R152). -/
def stepCount (s : State) : Nat := match s.latch.op with
  | .axpyB => 1
  | .axpyV => laneCount s

/-- The elements the next sequencer step processes. -/
def stepElems (s : State) : List Nat := match s.latch.op with
  | .axpyB => [s.idx]
  | .axpyV => laneElems s

theorem mem_stepElems {s : State} {i : Nat} : i ∈ stepElems s ↔ s.idx ≤ i ∧ i < s.idx + stepCount s := by
  unfold stepElems stepCount
  cases s.latch.op with
  | axpyB => simp; omega
  | axpyV => exact mem_laneElems

/-- A running command's turn, both strategies at once: fault outside DMEM, else write the step's elements and finish. -/
theorem sequencerTurn_running {s : State} (hb : s.status.busy = true) (hr : s.rstHeld = false) :
    sequencerTurn s = if runInDmem s (s.idx + stepCount s) = true then
      .next (finishStep { s with mem := laneWrites s (stepElems s), idx := s.idx + stepCount s })
    else .fault .dmemAddressAbsent := by
  have h : (s.rstHeld || !s.status.busy) = false := by simp [hb, hr]
  obtain hop | hop : s.latch.op = .axpyB ∨ s.latch.op = .axpyV := by cases s.latch.op <;> simp
  · simp only [sequencerTurn, stepCount, stepElems, h, hop]; exact stepB_eq_writeElems s
  · simp only [sequencerTurn, stepCount, stepElems, h, hop]; rfl

theorem sequencerTurn_idle {s : State} (hb : s.status.busy = false) : sequencerTurn s = .next s := by
  simp [sequencerTurn, hb]

theorem sequencerTurn_held {s : State} (hr : s.rstHeld = true) : sequencerTurn s = .next s := by
  simp [sequencerTurn, hr]

/-- All a sequencer turn that answers a next state can do: nothing, or one step of the running command, which changes only
DMEM, `idx`, STATUS and the draws. -/
theorem sequencerTurn_spec {s t : State} (h : sequencerTurn s = .next t) : t = s ∨
    (s.status.busy = true ∧ t = { s with
      mem := t.mem, draws := t.draws, idx := s.idx + stepCount s
      status := if s.idx + stepCount s = s.latch.n.toNat then { s.status with busy := false, done := true }
        else s.status }) := by
  rcases Bool.eq_false_or_eq_true s.rstHeld with hr | hr
  · rw [sequencerTurn_held hr] at h
    exact .inl (Host.Outcome.next.inj h).symm
  · rcases Bool.eq_false_or_eq_true s.status.busy with hb | hb
    · rw [sequencerTurn_running hb hr] at h
      split_ifs at h
      obtain rfl := Host.Outcome.next.inj h
      exact .inr ⟨hb,
        (finishStep_spec { s with mem := laneWrites s (stepElems s), idx := s.idx + stepCount s }).1⟩
    · rw [sequencerTurn_idle hb] at h
      exact .inl (Host.Outcome.next.inj h).symm

theorem runInDmem_iff (s : State) (k : Nat) : runInDmem s k = true ↔
    s.latch.abase.toNat + 2 * k ≤ s.params.dmemSize ∧ s.latch.bbase.toNat + 2 * k ≤ s.params.dmemSize ∧
    s.latch.ybase.toNat + 2 * k ≤ s.params.dmemSize := by
  simp [runInDmem, vectorInDmem, and_assoc]

theorem inVector_iff (base : Word) (n a : Nat) :
    inVector base n a = true ↔ base.toNat ≤ a ∧ a < base.toNat + 2 * n := by simp [inVector]

theorem inVector_false_iff (base : Word) (n a : Nat) :
    inVector base n a = false ↔ a < base.toNat ∨ base.toNat + 2 * n ≤ a := by
  rw [← Bool.not_eq_true, inVector_iff]; omega

/-- The elements a lane step writes, read back: each is computed from the memory before the step (R152). -/
theorem elem16_laneWrites (s : State) {order : List Nat} {i : Nat} (h : i ∈ order) :
    elem16 (laneWrites s order) s.latch.ybase i = elemResult s.mem s.latch i :=
  elem16_writeElems_of_mem _ _ _ _ _ h

theorem readByte_laneWrites (s : State) (order : List Nat) (a : Nat)
    (h : ∀ i ∈ order, a ≠ elemAddr s.latch.ybase i ∧ a ≠ elemAddr s.latch.ybase i + 1) :
    readByte (laneWrites s order) a = readByte s.mem a :=
  readByte_writeElems_of_not_mem _ _ _ _ _ h

/-- What the invariant says of a running command. -/
theorem GoodState.running {s : State} (hi : GoodState s) (hb : s.status.busy = true) :
    s.rstHeld = false ∧ s.idx < s.latch.n.toNat ∧ 1 ≤ stepCount s ∧ s.idx + stepCount s ≤ s.latch.n.toNat ∧
    runInDmem s (s.idx + stepCount s) = true := by
  have hlt := hi.runLeft hb
  have hv := (validate_none_iff _ _ _ _ _).1 (hi.runValid hb)
  have hp : 1 ≤ s.params.lanes := by have := hi.params; simp [Params.wf] at this; exact this.2
  have hc : 1 ≤ stepCount s ∧ s.idx + stepCount s ≤ s.latch.n.toNat := by
    unfold stepCount laneCount; cases s.latch.op <;> simp <;> omega
  refine ⟨?_, hlt, hc.1, hc.2, (runInDmem_iff _ _).2 (by omega)⟩
  cases h : s.rstHeld
  · rfl
  · have := hi.heldIdle h; simp [hb] at this

end Sys2Proof.Machine
end

