-- ==== Sys2Proof/Laws/PerInstr.lean ====
section
/-! SUPPORT. Statements about every command as syntax: its one spelling decodes to it and is legal. -/

namespace Sys2Proof.Laws.DecodeEncode

/-- The command's word is legal (RSVD = 0, OP at most 4) and decodes to the command (30_encoding.md R93, R94). -/
def Statement (i : Instr) : Prop := (c32Of (encode i)).wf = true ∧ decode (encode i) = .ok i

theorem nop : Statement .nop := ⟨rfl, rfl⟩
theorem sat : Statement .sat := ⟨rfl, rfl⟩
theorem axpy1 : Statement .axpy1 := ⟨rfl, rfl⟩
theorem axpyB : Statement .axpyB := ⟨rfl, rfl⟩
theorem axpyV : Statement .axpyV := ⟨rfl, rfl⟩

end Sys2Proof.Laws.DecodeEncode
end

