-- ==== Sys2Proof/Laws/Step.lean ====
section
/-! SUPPORT. What one step can do: whose turn it is, and what each action of the outside world answers. -/

namespace Sys2Proof.Machine

/-! ### Whose turn it is -/

theorem step_of_sequencerNext {s : State} (h : sequencerNext s = true) :
    step s = sequencerTurn { s with inputs := s.inputs.tail } := by
  rcases hi : s.inputs with _ | ⟨_ | _, rest⟩
  · simp only [step, nextTurn, hi, List.tail_nil]; congr 1; rw [← hi]
  · simp [sequencerNext, hi] at h
  · simp only [step, nextTurn, hi, List.tail_cons]

theorem step_of_host {s : State} {a : HostAction} {rest : List Slot} (h : s.inputs = .host a :: rest) :
    step s = hostTurn a { s with inputs := rest } := by simp only [step, nextTurn, h]

/-- A step is the sequencer's turn or one action of the host. -/
theorem step_cases (s : State) :
    (sequencerNext s = true ∧ step s = sequencerTurn { s with inputs := s.inputs.tail }) ∨
    (∃ a rest, s.inputs = .host a :: rest ∧ step s = hostTurn a { s with inputs := rest }) := by
  rcases h : s.inputs with _ | ⟨a | _, rest⟩
  · have hn : sequencerNext s = true := by simp [sequencerNext, h]
    exact .inl ⟨hn, by rw [step_of_sequencerNext hn, h]⟩
  · exact .inr ⟨a, rest, rfl, step_of_host h⟩
  · have hn : sequencerNext s = true := by simp [sequencerNext, h]
    exact .inl ⟨hn, by rw [step_of_sequencerNext hn, h]⟩

/-! ### The register map -/

theorem regAt_eq_none_iff (off width : Nat) : regAt off width = none ↔ off % 4 ≠ 0 ∨ 0xFC < off ∨ width ≠ 32 := by
  unfold regAt
  split_ifs with h
  · exact ⟨fun _ => h, fun _ => rfl⟩
  · refine ⟨fun hn => ?_, fun hh => absurd hh h⟩
    split at hn <;> simp at hn

theorem regAt_cmd_iff (off width : Nat) : regAt off width = some .cmd ↔ off = 0 ∧ width = 32 := by
  constructor
  · intro h
    unfold regAt at h
    split_ifs at h with h1
    split at h <;> simp at h
    omega
  · rintro ⟨rfl, rfl⟩; rfl

theorem regAt_reserved {off : Nat} (h4 : off % 4 = 0) (h0 : 0x30 ≤ off) (h1 : off ≤ 0xFC) :
    regAt off 32 = some .reserved := by
  unfold regAt
  rw [if_neg (by omega)]
  split <;> first | rfl | omega

/-- The offset at which a register other than the reserved ones stands (R21). -/
def offsetOf : Reg → Nat
  | .cmd => 0x00
  | .status => 0x04
  | .ie => 0x08
  | .alpha => 0x0C
  | .len => 0x10
  | .abase => 0x14
  | .bbase => 0x18
  | .ybase => 0x1C
  | .opa => 0x20
  | .opb => 0x24
  | .wide => 0x28
  | .result => 0x2C
  | .reserved => 0x30

theorem regAt_some {off width : Nat} {r : Reg} (h : regAt off width = some r) :
    width = 32 ∧ off % 4 = 0 ∧ off ≤ 0xFC ∧ (r ≠ .reserved → off = offsetOf r) := by
  unfold regAt at h
  split_ifs at h with h1
  refine ⟨by omega, by omega, by omega, ?_⟩
  split at h <;> simp only [Option.some.injEq] at h <;> subst h <;> simp [offsetOf]

/-! ### Register transactions -/

theorem cmdWrite_busy {s : State} (w : Word) (h : s.status.busy = true) :
    cmdWrite w s = .next { s with status := s.status.dropped } := by simp only [cmdWrite, h, if_true]; rfl

theorem cmdWrite_illegal {s : State} {w : Word} {e : IllegalWord} (h : s.status.busy = false) (hd : decode w = .error e) :
    cmdWrite w s = .next { s with status := s.status.rejected .illegal } := by
  simp only [cmdWrite, h, hd, Bool.false_eq_true, if_false]; rfl

/-- A legal command word runs its command, also while BUSY, where every command is dropped. -/
theorem cmdWrite_legal {s : State} {w : Word} {i : Instr} (hd : decode w = .ok i) : cmdWrite w s = exec i s := by
  cases hb : s.status.busy with
  | false => simp only [cmdWrite, hb, hd, Bool.false_eq_true, if_false]
  | true =>
    rw [cmdWrite_busy w hb]
    rcases exec_spec i s with ⟨_, h⟩ | ⟨h, _⟩ | ⟨h, _⟩ | ⟨_, _, h, _⟩
    · exact h.symm
    all_goals simp [hb] at h

theorem hostRegWrite_cmd {s : State} (w : Word) (h : s.rstHeld = false) : hostRegWrite 0x00 32 w s = cmdWrite w s := by
  simp only [hostRegWrite, h, Bool.false_eq_true, if_false, show regAt 0x00 32 = some .cmd from rfl]

theorem hostRegWrite_reg {s : State} {off width : Nat} {r : Reg} (v : Word) (h : s.rstHeld = false)
    (hr : regAt off width = some r) (hc : r ≠ .cmd) : hostRegWrite off width v s = .next (writeReg v s r) := by
  simp only [hostRegWrite, h, Bool.false_eq_true, if_false, hr]

theorem hostRegRead_reg {s : State} {off width : Nat} {r : Reg} (h : s.rstHeld = false)
    (hr : regAt off width = some r) : hostRegRead off width s = .next { s with readData := readReg s r } := by
  simp only [hostRegRead, h, Bool.false_eq_true, if_false, hr]

theorem step_cmd {s : State} {w : Word} {rest : List Slot} (h : s.inputs = cmdSlot w :: rest) (hr : s.rstHeld = false) :
    step s = cmdWrite w { s with inputs := rest } := by
  rw [step_of_host h]; exact hostRegWrite_cmd w hr

/-- All a register write that answers a next state can be: a command word, or the storing of one register. -/
theorem hostRegWrite_spec {s t : State} {off width : Nat} {v : Word} (h : hostRegWrite off width v s = .next t) :
    s.rstHeld = false ∧ ((off = 0 ∧ width = 32 ∧ cmdWrite v s = .next t) ∨
      (∃ r, r ≠ .cmd ∧ regAt off width = some r ∧ t = writeReg v s r)) := by
  cases hr : s.rstHeld with
  | true => simp [hostRegWrite, hr] at h
  | false =>
    refine ⟨rfl, ?_⟩
    rcases hreg : regAt off width with _ | r
    · simp [hostRegWrite, hr, hreg] at h
    · by_cases hc : r = .cmd
      · subst hc
        obtain ⟨rfl, rfl⟩ := (regAt_cmd_iff _ _).1 hreg
        exact .inl ⟨rfl, rfl, by rw [← hostRegWrite_cmd v hr]; exact h⟩
      · rw [hostRegWrite_reg v hr hreg hc] at h
        exact .inr ⟨r, hc, rfl, (Host.Outcome.next.inj h).symm⟩

/-! ### All a host action can do -/

theorem hostDmemRead_of_le {s : State} {addr count : Nat} (hr : s.rstHeld = false)
    (h : addr + count ≤ s.params.dmemSize) :
    hostDmemRead addr count s = .next { s with
      dmemData := (List.range count).map (fun k => hostSeesByte s (addr + k))
      draws := if s.status.busy then s.draws + 1 else s.draws } := by
  rw [hostDmemRead, hr]; exact if_pos h

theorem hostDmemWrite_of_le {s : State} {addr : Nat} {bytes : List Byte} (hr : s.rstHeld = false)
    (h : addr + bytes.length ≤ s.params.dmemSize) : hostDmemWrite addr bytes s = .next { s with
      mem := writeBytes s.mem addr bytes
      tainted := s.tainted
        || (s.status.busy && (List.range bytes.length).any (fun k => inRunRanges s (addr + k))) } := by
  rw [hostDmemWrite, hr]; exact if_pos h

/-- While `rst` is held the host's only actions with an answer are those on `rst` itself. -/
theorem hostTurn_held {a : HostAction} {s : State} (hr : s.rstHeld = true) : hostTurn a s = match a with
    | .rstAssert => .next (applyReset s)
    | .rstRelease => .next { s with rstHeld := false }
    | .regRead .. | .regWrite .. | .dmemRead .. | .dmemWrite .. => .refused .hostAccessDuringReset := by
  cases a <;> simp [hostTurn, hostRegRead, hostRegWrite, hostDmemRead, hostDmemWrite, hr]

/-- One host action that answers a next state is a register read, a command word, the storing of one register, a DMEM
access, or a change of `rst`. -/
theorem hostTurn_spec {a : HostAction} {s t : State} (h : hostTurn a s = .next t) :
    (∃ off width r, a = .regRead off width ∧ s.rstHeld = false ∧ regAt off width = some r ∧ t = { s with readData := readReg s r }) ∨
    (∃ w, a = .regWrite 0x00 32 w ∧ s.rstHeld = false ∧ cmdWrite w s = .next t) ∨
    (∃ off v r, a = .regWrite off 32 v ∧ s.rstHeld = false ∧ r ≠ .cmd ∧ regAt off 32 = some r ∧ t = writeReg v s r) ∨
    (∃ addr count, a = .dmemRead addr count ∧ s.rstHeld = false ∧ addr + count ≤ s.params.dmemSize ∧ t = { s with
      dmemData := (List.range count).map (fun k => hostSeesByte s (addr + k))
      draws := if s.status.busy then s.draws + 1 else s.draws }) ∨
    (∃ addr bytes, a = .dmemWrite addr bytes ∧ s.rstHeld = false ∧ addr + bytes.length ≤ s.params.dmemSize ∧ t = { s with
      mem := writeBytes s.mem addr bytes
      tainted := s.tainted
        || (s.status.busy && (List.range bytes.length).any (fun k => inRunRanges s (addr + k))) }) ∨
    (a = .rstAssert ∧ t = applyReset s) ∨
    (a = .rstRelease ∧ t = { s with rstHeld := false }) := by
  cases a with
  | regRead off width =>
    simp only [hostTurn, hostRegRead] at h
    split_ifs at h with h0
    split at h
    · simp at h
    · next r hr => exact .inl ⟨off, width, r, rfl, by simpa using h0, hr, (Host.Outcome.next.inj h).symm⟩
  | regWrite off width v =>
    obtain ⟨h0, ⟨rfl, rfl, hc⟩ | ⟨r, hc, hr, rfl⟩⟩ := hostRegWrite_spec h
    · exact .inr (.inl ⟨v, rfl, h0, hc⟩)
    · obtain ⟨rfl, -⟩ := regAt_some hr
      exact .inr (.inr (.inl ⟨off, v, r, rfl, h0, hc, hr, rfl⟩))
  | dmemRead addr count =>
    simp only [hostTurn, hostDmemRead] at h
    by_cases h0 : s.rstHeld = true
    · rw [if_pos h0] at h; simp at h
    · by_cases hle : addr + count ≤ s.params.dmemSize
      · rw [if_neg h0, if_pos hle] at h
        exact .inr (.inr (.inr (.inl ⟨addr, count, rfl, by simpa using h0, hle, (Host.Outcome.next.inj h).symm⟩)))
      · rw [if_neg h0, if_neg hle] at h; simp at h
  | dmemWrite addr bytes =>
    simp only [hostTurn, hostDmemWrite] at h
    split_ifs at h with h0 hle
    exact .inr (.inr (.inr (.inr (.inl ⟨addr, bytes, rfl, by simpa using h0, hle, (Host.Outcome.next.inj h).symm⟩))))
  | rstAssert => exact .inr (.inr (.inr (.inr (.inr (.inl ⟨rfl, (Host.Outcome.next.inj h).symm⟩)))))
  | rstRelease => exact .inr (.inr (.inr (.inr (.inr (.inr ⟨rfl, (Host.Outcome.next.inj h).symm⟩)))))

/-- All a command word that answers a next state can do. -/
theorem cmdWrite_spec {w : Word} {s t : State} (h : cmdWrite w s = .next t) :
    (s.status.busy = true ∧ t = { s with status := s.status.dropped }) ∨
    (s.status.busy = false ∧ ∃ e, decode w = .error e ∧ t = { s with status := s.status.rejected .illegal }) ∨
    (s.status.busy = false ∧ ∃ i, decode w = .ok i ∧ exec i s = .next t) := by
  cases hb : s.status.busy
  · cases hd : decode w with
    | ok i => rw [cmdWrite_legal hd] at h; exact .inr (.inr ⟨rfl, i, rfl, h⟩)
    | error e =>
      rw [cmdWrite_illegal hb hd] at h
      exact .inr (.inl ⟨rfl, e, rfl, (Host.Outcome.next.inj h).symm⟩)
  · rw [cmdWrite_busy w hb] at h; exact .inl ⟨rfl, (Host.Outcome.next.inj h).symm⟩

/-! ### Decoding -/

/-- The decoder as a case analysis on the word's value (30_encoding.md R94). -/
theorem decode_eq (w : Word) : decode w =
    if w.toNat = 0 then .ok .nop else if w.toNat = 1 then .ok .sat else if w.toNat = 2 then .ok .axpy1
    else if w.toNat = 3 then .ok .axpyB else if w.toNat = 4 then .ok .axpyV
    else if w.toNat < 16 then .error .reservedOpcode else .error .reservedBits := by
  have hw := w.isLt
  have hr : (c32Of w).rsvd = 0#28 ↔ w.toNat < 16 := by
    simp only [c32Of, ← BitVec.toNat_inj, BitVec.extractLsb'_toNat, BitVec.toNat_ofNat]
    omega
  have ho : (c32Of w).op.toNat = w.toNat % 16 := by simp [c32Of, BitVec.extractLsb'_toNat]
  unfold decode decodeC32
  by_cases h : w.toNat < 16
  · rw [if_neg (by simp [hr, h]), ho, Nat.mod_eq_of_lt h]
    generalize w.toNat = n at h
    interval_cases n <;> rfl
  · rw [if_pos (by simp [hr, h])]
    split_ifs <;> first | rfl | omega

end Sys2Proof.Machine
end

