-- ==== Sys2Proof/Laws/Run.lean ====
section
/-! SUPPORT. A running vector command: what one sequencer turn does to a good state, and the memory
that a finished command leaves. -/

namespace Sys2Proof.Machine

/-- In a good running state the sequencer's turn is the writing of its elements and the end of the step. -/
theorem sequencerTurn_of_good {s : State} (hi : GoodState s) (hb : s.status.busy = true) : sequencerTurn s =
    .next (finishStep { s with mem := laneWrites s (stepElems s), idx := s.idx + stepCount s }) := by
  obtain ⟨hr, -, -, -, hd⟩ := hi.running hb
  rw [sequencerTurn_running hb hr, if_pos hd]

/-- The same while the host has kept out of the ranges. -/
theorem sequencerTurn_of_kept {s : State} (hi : GoodState s) (hb : s.status.busy = true) (ht : s.tainted = false) :
    sequencerTurn s = .next { s with
      mem := laneWrites s (stepElems s), idx := s.idx + stepCount s
      status := if s.idx + stepCount s = s.latch.n.toNat then { s.status with busy := false, done := true }
        else s.status } := by
  rw [sequencerTurn_of_good hi hb]
  exact congrArg _ (finishStep_of_kept (s := { s with mem := laneWrites s (stepElems s), idx := s.idx + stepCount s }) ht)

/-! ### Running without the host -/

theorem run_step {k : Nat} {s t : State} (h : step s = .next t) :
    Host.Core.run core (k + 1) s = Host.Core.run core k t := by
  have h' : core.step s = .next t := h
  simp only [Host.Core.run, h']

theorem step_silent {s : State} (h : s.inputs = []) : step s = sequencerTurn s := by simp only [step, nextTurn, h]

/-- An idle block that the host leaves alone keeps its state (60_exceptions.md R187). -/
theorem run_idle (k : Nat) {s : State} (h : s.inputs = []) (hb : s.status.busy = false) :
    Host.Core.run core k s = .next s := by
  induction k with
  | zero => rfl
  | succ k ih => rw [run_step ((step_silent h).trans (sequencerTurn_idle hb))]; exact ih

/-! ### The memory of a run -/

theorem inRunRanges_iff (s : State) (a : Nat) : inRunRanges s a = true ↔
    (s.latch.abase.toNat ≤ a ∧ a < s.latch.abase.toNat + 2 * s.latch.n.toNat) ∨
    (s.latch.bbase.toNat ≤ a ∧ a < s.latch.bbase.toNat + 2 * s.latch.n.toNat) ∨
    (s.latch.ybase.toNat ≤ a ∧ a < s.latch.ybase.toNat + 2 * s.latch.n.toNat) := by
  simp only [inRunRanges, Bool.or_eq_true, inVector_iff, or_assoc]

/-- While the host keeps out of the ranges, the inputs not yet processed are as at acceptance. -/
theorem RunProgress.result_original {s : State} (hp : RunProgress s) (hi : GoodState s) (hb : s.status.busy = true)
    (ht : s.tainted = false) {i : Nat} (h : s.idx ≤ i) (hn : i < s.latch.n.toNat) :
    elemResult s.mem s.latch i = elemResult s.d0 s.latch i := by
  have hv := (validate_none_iff _ _ _ _ _).1 (hi.runValid hb)
  have key : ∀ base : Word, base = s.latch.abase ∨ base = s.latch.bbase →
      elem16 s.mem base i = elem16 s.d0 base i := by
    intro base hbase
    refine elem16_congr fun a ha => hp.untouched hb ht a ((inRunRanges_iff _ _).2 ?_) ((inVector_false_iff _ _ _).2 ?_)
    all_goals
      simp only [elemAddr] at ha
      rcases hbase with rfl | rfl <;> omega
  exact elemResult_congr (key _ (.inl rfl)) (key _ (.inr rfl))

/-- What a finished vector command leaves in DMEM: `y` computed from `m0`, every other byte as in `m0` (R146). -/
def finishedMemory (m0 : Memory) (l : Latch) : Memory :=
  writeElems l.ybase (elemResult m0 l) (List.range l.n.toNat) m0

theorem lookup_write16 (m : Memory) (a b : Nat) (v : Half) : lookup (write16 m a v) b =
    if b = a + 1 then some (v.extractLsb' 8 8) else if b = a then some (v.extractLsb' 0 8) else lookup m b := by
  simp only [write16, lookup_writeByte]

theorem lookup_writeElems_of_not_mem (base : Word) (f : Nat → Half) (is : List Nat) (m : Memory) (a : Nat)
    (h : ∀ i ∈ is, a ≠ elemAddr base i ∧ a ≠ elemAddr base i + 1) :
    lookup (writeElems base f is m) a = lookup m a := by
  induction is generalizing m with
  | nil => rfl
  | cons i is ih =>
    rw [writeElems_cons, ih _ (fun j hj => h j (List.mem_cons_of_mem _ hj)), lookup_write16,
      if_neg (h i List.mem_cons_self).2, if_neg (h i List.mem_cons_self).1]

theorem lookup_writeElems_of_mem (base : Word) (f : Nat → Half) (is : List Nat) (m : Memory) (i k : Nat) (h : i ∈ is)
    (hk : k < 2) : lookup (writeElems base f is m) (elemAddr base i + k) = some ((f i).extractLsb' (8 * k) 8) := by
  induction is generalizing m with
  | nil => simp at h
  | cons j is ih =>
    rw [writeElems_cons]
    by_cases hi : i ∈ is
    · exact ih _ hi
    · obtain rfl : i = j := by simpa [hi] using h
      rw [lookup_writeElems_of_not_mem, lookup_write16]
      · obtain rfl | rfl : k = 0 ∨ k = 1 := by omega
        · rw [if_neg (by omega), if_pos (by omega)]
        · rw [if_pos rfl]
      · intro l hl
        have : l ≠ i := fun e => hi (e ▸ hl)
        simp only [elemAddr]
        omega

/-- Writing the same elements with the same patterns, in any order and any number of times, gives the same canonical
memory. -/
theorem writeElems_eq {m : Memory} (hm : Memory.wf m) (base : Word) {f g : Nat → Half} {is js : List Nat}
    (hmem : ∀ i, i ∈ is ↔ i ∈ js) (hf : ∀ i ∈ is, f i = g i) : writeElems base f is m = writeElems base g js m := by
  refine memory_ext (writeElems_wf hm _ _ _) (writeElems_wf hm _ _ _) fun a => ?_
  by_cases h : ∃ i ∈ is, ∃ k < 2, a = elemAddr base i + k
  · obtain ⟨i, hi, k, hk, rfl⟩ := h
    rw [lookup_writeElems_of_mem _ _ _ _ _ _ hi hk, lookup_writeElems_of_mem _ _ _ _ _ _ ((hmem i).1 hi) hk, hf i hi]
  · have hno : ∀ i ∈ is, a ≠ elemAddr base i ∧ a ≠ elemAddr base i + 1 := fun i hi =>
      ⟨fun e => h ⟨i, hi, 0, by omega, e⟩, fun e => h ⟨i, hi, 1, by omega, e⟩⟩
    rw [lookup_writeElems_of_not_mem _ _ _ _ _ hno,
      lookup_writeElems_of_not_mem _ _ _ _ _ fun i hi => hno i ((hmem i).2 hi)]

end Sys2Proof.Machine
end

