-- ==== Sys2Proof/Tests/Slice0.lean ====
section
/-! SUPPORT. Tests: well-formedness, decoding, one step of each command against 95_test_vectors.md, and for every
statement with hypotheses a concrete case that meets them all. -/

namespace Sys2Proof.Tests

open Sys2Proof Sys2Proof.Machine

/-! ### Small states -/

/-- Whether an outcome is a next state with a property. -/
def answers (o : Host.Outcome State Fault Refusal) (p : State → Bool) : Bool :=
  match o with
  | .next t => p t
  | .fault _ => false
  | .refused _ => false

/-- The reset state about to take one host action. -/
def facing (a : HostAction) (s : State) : State := { s with inputs := [.host a] }

/-- The reset state with the operands of a vector command. -/
def operands (n a b y : Word) : State :=
  { State.reset with regs := { OperandRegs.reset with alpha := 0x8000, len := n, abase := a, bbase := b, ybase := y } }

/-- The vectors of 95_test_vectors.md section 2.7, and five elements of 0x5555 where `y` will be. -/
def vectors : Memory :=
  writeBytes (writeBytes (writeBytes [] 0x300 (List.replicate 10 0x55))
    0x200 [0xFF, 0x7F, 0x00, 0x80, 0xFF, 0xFF, 0x01, 0x00, 0x00, 0xC0])
    0x100 [0xFF, 0x7F, 0x00, 0x80, 0x01, 0x00, 0xFF, 0xFF, 0x00, 0x40]

/-- The command of section 2.7, running, with `i` elements done by whoever wrote `m`. -/
def running (op : VecOp) (n : Word) (i : Nat) (m : Memory) : State :=
  { operands n 0x100 0x200 0x300 with
    status := { Status.reset with busy := true }
    latch := { op := op, alpha := 0x8000, n := n, abase := 0x100, bbase := 0x200, ybase := 0x300 }
    idx := i, mem := m, d0 := vectors }

/-! ### Well-formedness: each check refuses an ill-formed term -/

theorem test_wf_legal_word : C32.wf { op := 4, rsvd := 0 } = true := by decide
theorem test_wf_refuses_reserved_opcode : C32.wf { op := 5, rsvd := 0 } = false := by decide
theorem test_wf_refuses_reserved_bits : C32.wf { op := 0, rsvd := 1 } = false := by decide
theorem test_wf_refuses_params : Params.wf { dmemSize := 2 ^ 32 + 1, lanes := 1, regBase := 0 } = false ∧
    Params.wf { dmemSize := 0x400, lanes := 0, regBase := 0 } = false ∧
    Params.wf { dmemSize := 2 ^ 32, lanes := 1, regBase := 0x40000000 } = true := by decide
theorem test_wf_refuses_register_access :
    HostAction.wf Params.illustrative (.regRead 0x02 32) = false ∧
    HostAction.wf Params.illustrative (.regRead 0x100 32) = false ∧
    HostAction.wf Params.illustrative (.regWrite 0x04 16 0) = false ∧
    HostAction.wf Params.illustrative (.regWrite 0xFE 32 0) = false ∧
    HostAction.wf Params.illustrative (.regWrite 0xFC 32 0) = true := by decide
theorem test_wf_refuses_absent_address :
    HostAction.wf Params.illustrative (.dmemRead 0x3FF 2) = false ∧
    HostAction.wf Params.illustrative (.dmemWrite 0x400 [1]) = false ∧
    HostAction.wf Params.illustrative (.dmemRead 0x3FE 2) = true := by decide

/-! ### Decoding: words written out from the encoding of 30_encoding.md R90 and R93 -/

theorem test_decode_nop : decode 0b00000000000000000000000000000000#32 = .ok .nop := by decide
theorem test_decode_sat : decode 0b00000000000000000000000000000001#32 = .ok .sat := by decide
theorem test_decode_axpy1 : decode 0b00000000000000000000000000000010#32 = .ok .axpy1 := by decide
theorem test_decode_axpyB : decode 0b00000000000000000000000000000011#32 = .ok .axpyB := by decide
theorem test_decode_axpyV : decode 0b00000000000000000000000000000100#32 = .ok .axpyV := by decide
theorem test_decode_rejects : decode 0x5#32 = .error .reservedOpcode ∧ decode 0xF#32 = .error .reservedOpcode ∧
    decode 0x13#32 = .error .reservedBits ∧ decode 0x80000001#32 = .error .reservedBits ∧
    decode 0xFFFFFFFF#32 = .error .reservedBits := by decide
theorem test_table_words : decodeTableWord 32 4 = some .axpyV ∧ decodeTableWord 8 1 = some .sat ∧
    decodeTableWord 32 16 = none := by decide

/-! ### One step of each command: the values are those of 95_test_vectors.md -/

/-- W1. -/
theorem test_nop : answers (step (State.reset.withFetchWord 32 0)) (fun t => readReg t .status == 2#32) = true := by decide
/-- T4: acceptance leaves DROP; NOP sets DONE again. -/
theorem test_nop_keeps_drop :
    answers (exec .nop { State.reset with status := { Status.reset with done := true, drop := true } })
      (fun t => readReg t .status == 0xA#32) = true := by decide
/-- S11: the low 16 bits are 0, yet it clamps. -/
theorem test_sat : answers (step (State.withFetchWord
    { State.reset with regs := { OperandRegs.reset with wide := 0x00010000 } } 32 1))
      (fun t => t.result == 0x00007FFF#32 && readReg t .status == 2#32) = true := by decide
/-- T5: dropped while BUSY; RESULT unchanged. -/
theorem test_sat_dropped : answers (exec .sat (running .axpyB 5 0 vectors))
    (fun t => readReg t .status == 9#32 && t.result == 0) = true := by decide
/-- X9: a clamp of `scaled` would give -1. -/
theorem test_axpy1 : answers (step (State.withFetchWord
    { State.reset with regs := { OperandRegs.reset with opa := 0x8000, opb := 0x8000, alpha := 0x8000 } } 32 2))
      (fun t => t.result == 0 && readReg t .status == 2#32) = true := by decide
/-- X17: -1.5 floors to -2. -/
theorem test_axpy1_floor : answers (exec .axpy1
    { State.reset with regs := { OperandRegs.reset with opa := 0, opb := 0xFFFD, alpha := 0x4000 } })
      (fun t => t.result == 0xFFFFFFFE#32) = true := by decide
/-- V8: OVERLAP. -/
theorem test_axpyB_overlap : answers (step ((operands 4 0x100 0x104 0x102).withFetchWord 32 3))
    (fun t => readReg t .status == 0x44#32) = true := by decide
/-- Section 2.7, AXPY.B: the last element step. -/
theorem test_axpyB_last_step : answers (step (running .axpyB 5 4 vectors))
    (fun t => elem16 t.mem 0x300 4 == 0x7FFF#16 && elem16 t.mem 0x300 3 == 0x5555#16 && t.idx == 5
      && readReg t .status == 2#32) = true := by decide
/-- V17: MISALIGNED hides RANGE. -/
theorem test_axpyV_misaligned : answers (step ((operands 0x201 0x1 0x0 0x0).withFetchWord 32 4))
    (fun t => readReg t .status == 0x24#32) = true := by decide
/-- Section 2.7, AXPY.V with LANES = 4: the first lane step. -/
theorem test_axpyV_first_step : answers (step (running .axpyV 5 0 vectors))
    (fun t => elem16 t.mem 0x300 0 == 0x0000#16 && elem16 t.mem 0x300 1 == 0x0000#16 && elem16 t.mem 0x300 2 == 0x0002#16
      && elem16 t.mem 0x300 3 == 0xFFFE#16 && elem16 t.mem 0x300 4 == 0x5555#16 && t.idx == 4
      && readReg t .status == 1#32) = true := by decide

/-! ### The register interface, DMEM and reset -/

/-- T1 and T2 of section 2.6. -/
theorem test_status_clear :
    answers (step (facing (.regWrite 0x04 32 4) { State.reset with status := { Status.reset with err := true, ecause := 4 } }))
      (fun t => readReg t .status == 0#32) = true ∧
    answers (step (facing (.regWrite 0x04 32 2) { State.reset with status := { Status.reset with err := true, ecause := 4 } }))
      (fun t => readReg t .status == 0x44#32) = true := by decide
/-- G1, G5 and G4 of section 2.6. -/
theorem test_register_writes :
    answers (step (facing (.regWrite 0x0C 32 0xFFFF8000) State.reset)) (fun t => readReg t .alpha == 0x8000#32) = true ∧
    answers (step (facing (.regWrite 0x08 32 0xFFFFFFFF) State.reset)) (fun t => readReg t .ie == 3#32) = true ∧
    answers (step (facing (.regWrite 0x2C 32 0x12345678) State.reset)) (fun t => readReg t .result == 0#32) = true := by
  decide
/-- The elements at 0x100 of section 3's P3, as bytes. -/
theorem test_little_endian :
    elem16 (writeBytes [] 0x100 [0x00, 0x10, 0xFF, 0x7F]) 0x100 0 = 0x1000#16 ∧
    elem16 (writeBytes [] 0x100 [0x00, 0x10, 0xFF, 0x7F]) 0x100 1 = 0x7FFF#16 := by decide
theorem test_vectors_canonical : Memory.wf vectors ∧ Memory.inside Params.illustrative vectors := by decide
theorem test_reset_memory_canonical : Memory.wf State.reset.mem := by decide
theorem test_reset_asserted : answers (step (facing .rstAssert (operands 5 0x100 0x200 0x300)))
    (fun t => t.regs == OperandRegs.reset && t.rstHeld) = true := by decide

/-! ### Cases that meet the hypotheses of the statements -/

/-- The block of `s` with a command word as the only thing scheduled. -/
def presenting (w : Word) (s : State) : State := { s with inputs := [cmdSlot w] }

/-- Five operand settings: accepted, empty and accepted at the boundary (V3), MISALIGNED, RANGE and OVERLAP. -/
abbrev accepted : State := operands 5 0x100 0x200 0x300
abbrev empty : State := operands 0 0x400 0x400 0x400
abbrev odd : State := operands 4 0x100 0x200 0x107
abbrev far : State := operands 4 0x100 0x200 0x3FA
abbrev mixed : State := operands 4 0x100 0x200 0x1FA

/-- Running commands: at the first element, at the last, one element long, and on the one lane. -/
abbrev atFirst (op : VecOp) : State := running op 5 0 vectors
abbrev atLast (op : VecOp) : State := running op 1 0 vectors
abbrev oneLane : State := { atFirst .axpyV with params := { dmemSize := 0x400, lanes := 1, regBase := 0 } }

theorem reset_good : GoodState State.reset :=
  ⟨by decide, by decide, by decide, by decide, by decide, by decide, by decide, by decide⟩
theorem accepted_good : GoodState accepted :=
  ⟨by decide, by decide, by decide, by decide, by decide, by decide, by decide, by decide⟩
theorem odd_good : GoodState odd :=
  ⟨by decide, by decide, by decide, by decide, by decide, by decide, by decide, by decide⟩
theorem atFirst_good (op : VecOp) : GoodState (atFirst op) := by
  cases op <;> exact ⟨by decide, by decide, by decide, by decide, by decide, by decide, by decide, by decide⟩
theorem atLast_good (op : VecOp) : GoodState (atLast op) := by
  cases op <;> exact ⟨by decide, by decide, by decide, by decide, by decide, by decide, by decide, by decide⟩
theorem oneLane_good : GoodState oneLane :=
  ⟨by decide, by decide, by decide, by decide, by decide, by decide, by decide, by decide⟩
theorem atFirst_progress (op : VecOp) : RunProgress (atFirst op) := ⟨fun _ _ i h => absurd h (by simp [running]), fun _ _ _ _ _ => rfl⟩
theorem atLast_progress (op : VecOp) : RunProgress (atLast op) := ⟨fun _ _ i h => absurd h (by simp [running]), fun _ _ _ _ _ => rfl⟩

/-- A good state stays good with other things scheduled. -/
theorem good_inputs {s : State} (h : GoodState s) (l : List Slot) : GoodState { s with inputs := l } :=
  ⟨h.params, h.status, h.memWf, h.memInside, h.resultQ15, h.heldIdle, h.runValid, h.runLeft⟩

theorem witness_DecodeFollowsOpcodeMap :
    (presenting 5 State.reset).inputs = cmdSlot 5 :: [] ∧ (presenting 5 State.reset).rstHeld = false ∧
    (presenting 5 State.reset).status.busy = false ∧ 4 < (5 : Word).toNat ∧ 4 < (0xFFFFFFFF : Word).toNat := by decide
theorem witness_StepRunsPresentedCommand :
    (presenting 4 State.reset).inputs = cmdSlot 4 :: [] ∧ (presenting 4 State.reset).rstHeld = false ∧
    decode 4 = .ok .axpyV ∧ decode 0 = .ok .nop := by decide
theorem witness_SaturateClampsToQ15 : (32768 : Int) > 32767 ∧ (-32769 : Int) < -32768 ∧ (-32768 : Int) ≤ 32767 := by decide
theorem witness_SaturateLaws : (-32768 : Int) ≤ 32767 ∧ (32767 : Int) ≤ 32768 := by decide
theorem witness_ZeroAlphaCopies : (-32768 : Int) ≤ -32768 ∧ (-32768 : Int) ≤ 32767 ∧
    (State.reset.latch.alpha = 0) := by decide
/-- Every command's idle and BUSY case; an ILLEGAL word of each opcode; the values of S11 and X8; DROP = 0. -/
theorem witness_commands :
    State.reset.status.busy = false ∧ (atFirst .axpyB).status.busy = true ∧ State.reset.status.drop = false ∧
    State.reset.regs.alpha = 0 ∧
    (presenting 0x10 State.reset).inputs = cmdSlot 0x10 :: [] ∧ (0x10 : Word).extractLsb' 0 4 = 0x0#4 ∧
    (0x11 : Word).extractLsb' 0 4 = 0x1#4 ∧ (0x80000002 : Word).extractLsb' 0 4 = 0x2#4 ∧
    (0x10 : Word).extractLsb' 4 28 ≠ 0#28 ∧ (0x11 : Word).extractLsb' 4 28 ≠ 0#28 ∧
    (0x80000002 : Word).extractLsb' 4 28 ≠ 0#28 := by decide
theorem witness_NopCommand : (presenting 0x10 State.reset).inputs = cmdSlot 0x10 :: [] ∧
    State.reset.status.busy = false ∧ (atFirst .axpyB).status.busy = true := by decide
theorem witness_SatCommand :
    ({ State.reset with regs := { OperandRegs.reset with wide := 0x00010000 } } : State).regs.wide = 0x00010000 ∧
    State.reset.status.busy = false ∧ State.reset.status.drop = false := by decide
theorem witness_Axpy1Command : State.reset.regs.alpha = 0 ∧ State.reset.status.busy = false ∧
    ({ State.reset with regs := { OperandRegs.reset with opa := 0xFFFF, opb := 0x8000, alpha := 0x8000 } } : State).regs.opa
      = 0xFFFF := by decide
theorem witness_ImmediateCommandsComplete : State.reset.status.busy = false ∧ (Instr.sat = .sat ∨ Instr.sat = .axpy1) := by
  decide
theorem witness_VectorCommandStarts : accepted.status.busy = false ∧ operandCause accepted = none ∧
    accepted.regs.len ≠ 0 ∧ empty.status.busy = false ∧ operandCause empty = none ∧ empty.regs.len = 0 := by decide
theorem witness_RejectionIsPrecise : odd.status.busy = false ∧ operandCause odd = some .misaligned ∧
    operandCause far = some .range ∧ operandCause mixed = some .overlap ∧ decode 0x13 = .error .reservedBits ∧
    (presenting 0x13 mixed).inputs = cmdSlot 0x13 :: [] := by decide
/-- One setting for each cause and none, with words 4, 5, 2 and 3. -/
theorem witness_RejectionPriority : (presenting 5 mixed).inputs = cmdSlot 5 :: [] ∧ 4 < (5 : Word).toNat ∧
    (2 : Word).toNat ≤ 2 ∧ (3 : Word).toNat = 3 ∧ (4 : Word).toNat = 4 ∧ odd.regs.ybase.toNat % 2 = 1 ∧
    ¬ far.regs.ybase.toNat % 2 = 1 ∧ far.regs.ybase.toNat + 2 * far.regs.len.toNat > far.params.dmemSize ∧
    ¬ mixed.regs.ybase.toNat + 2 * mixed.regs.len.toNat > mixed.params.dmemSize ∧
    mixed.regs.bbase.toNat < mixed.regs.ybase.toNat + 2 * mixed.regs.len.toNat ∧
    operandCause accepted = none := by decide
/-- In place over `a`: the byte of `y[4]` is a byte of `a[4]`. -/
theorem witness_OutputMeetsInputsAtOwnIndex :
    latchCause Params.illustrative { (atFirst .axpyB).latch with ybase := 0x100 } = none ∧ 4 < (5 : Word).toNat ∧
    (0x108 : Nat) = elemAddr 0x100 4 := by decide
theorem witness_BusyDropsCommandWord :
    (presenting 0xFFFFFFFF (atFirst .axpyB)).inputs = cmdSlot 0xFFFFFFFF :: [] ∧
    (presenting 0xFFFFFFFF (atFirst .axpyB)).status.busy = true ∧ (atFirst .axpyB).rstHeld = false ∧
    answers (step (facing (.regWrite 0x04 32 8) { State.reset with status := { Status.reset with drop := true } }))
      (fun t => !t.status.drop) = true ∧
    answers (step (facing .rstAssert { State.reset with status := { Status.reset with drop := true } }))
      (fun t => !t.status.drop) = true := by decide
theorem witness_CommandFrame : (∃ t, exec .sat State.reset = .next t) ∧ (∃ t, exec .axpyV accepted = .next t) ∧
    (∃ t, exec .axpyB (atFirst .axpyB) = .next t) ∧ State.reset.status.busy = false :=
  ⟨⟨_, rfl⟩, ⟨_, rfl⟩, ⟨_, rfl⟩, rfl⟩
theorem witness_ElementStepEffect : GoodState (atLast .axpyB) ∧ (atLast .axpyB).status.busy = true ∧
    (atLast .axpyB).latch.op = .axpyB ∧ (atLast .axpyB).tainted = false ∧ sequencerNext (atLast .axpyB) = true ∧
    State.reset.status.busy = false ∧ sequencerNext State.reset = true :=
  ⟨atLast_good _, rfl, rfl, rfl, rfl, rfl, rfl⟩
/-- The first lane step, of four of five elements. -/
theorem witness_LaneStepEffect : GoodState (atFirst .axpyV) ∧ (atFirst .axpyV).status.busy = true ∧
    (atFirst .axpyV).latch.op = .axpyV ∧ (atFirst .axpyV).tainted = false ∧ sequencerNext (atFirst .axpyV) = true ∧
    [3, 1, 0, 2].Perm ((List.range 4).map (fun j => 0 + j)) := ⟨atFirst_good _, rfl, rfl, rfl, rfl, by decide⟩
theorem witness_OneLaneStepsLikeBaseline : GoodState oneLane ∧ oneLane.status.busy = true ∧ oneLane.params.lanes = 1 :=
  ⟨oneLane_good, rfl, rfl⟩
theorem witness_SequencerNeverStops : GoodState (atFirst .axpyV) ∧ GoodState State.reset := ⟨atFirst_good _, reset_good⟩
theorem witness_SequencerWritesOnlyOutput : GoodState (atFirst .axpyV) ∧ (∃ t, sequencerTurn (atFirst .axpyV) = .next t) ∧
    inVector 0x300 5 0x30A = false ∧ (∃ t, sequencerTurn State.reset = .next t) :=
  ⟨atFirst_good _, ⟨_, rfl⟩, rfl, ⟨_, rfl⟩⟩
theorem witness_ResetIsGood : Params.wf { dmemSize := 0, lanes := 1, regBase := 0 } = true ∧
    Params.wf { dmemSize := 2 ^ 32, lanes := 8, regBase := 0x40000000 } = true := by decide
theorem witness_StepKeepsInvariant : GoodState (atFirst .axpyV) ∧ (∃ t, step (atFirst .axpyV) = .next t) ∧
    GoodState State.reset ∧ (∃ t, step State.reset = .next t) := ⟨atFirst_good _, ⟨_, rfl⟩, reset_good, ⟨_, rfl⟩⟩
theorem witness_StepKeepsRunProgress : GoodState (atFirst .axpyV) ∧ RunProgress (atFirst .axpyV) ∧
    (∃ t, step (atFirst .axpyV) = .next t) := ⟨atFirst_good _, atFirst_progress _, ⟨_, rfl⟩⟩
theorem witness_CompletionDeliversResult (op : VecOp) : GoodState (atLast op) ∧ RunProgress (atLast op) ∧
    (atLast op).status.busy = true ∧ (atLast op).tainted = false ∧
    ∃ t, step (atLast op) = .next t ∧ t.status.busy = false ∧ t.status.done = true :=
  ⟨atLast_good _, atLast_progress _, rfl, rfl, by cases op <;> exact ⟨_, rfl, rfl, rfl⟩⟩
theorem witness_BaselineCommandResult : GoodState accepted ∧ operandCause accepted = none ∧ 4 < accepted.regs.len.toNat ∧
    inVector 0x300 5 0x30A = false := ⟨accepted_good, rfl, by decide, rfl⟩
theorem witness_LaneCommandResult : GoodState accepted ∧ operandCause accepted = none ∧ 4 < accepted.regs.len.toNat ∧
    inVector 0x300 5 0x2FF = false := ⟨accepted_good, rfl, by decide, rfl⟩
theorem witness_StrategiesAgree : GoodState accepted ∧ operandCause accepted = none ∧ GoodState odd ∧
    operandCause odd = some .misaligned ∧ odd.inputs = [] := ⟨accepted_good, rfl, odd_good, rfl, rfl⟩
theorem witness_RunningCommandCompletes : GoodState (atFirst .axpyB) ∧ (atFirst .axpyB).status.busy = true ∧
    (atFirst .axpyB).inputs = [] := ⟨atFirst_good _, rfl, rfl⟩
theorem witness_RunningCommandKeepsOperands : (atFirst .axpyV).status.busy = true ∧
    ∃ t, step (atFirst .axpyV) = .next t ∧ t.status.busy = true := ⟨rfl, _, rfl, rfl⟩
theorem witness_RegisterReads : (facing (.regRead 0xFC 32) State.reset).inputs = .host (.regRead 0xFC 32) :: [] ∧
    (facing (.regRead 0xFC 32) State.reset).rstHeld = false ∧ 0xFC % 4 = 0 ∧ 0x30 % 4 = 0 ∧ 0x2C % 4 = 0 := by decide
theorem witness_RegisterWrites :
    (facing (.regWrite 0x30 32 1) State.reset).inputs = .host (.regWrite 0x30 32 1) :: [] ∧
    (facing (.regWrite 0x30 32 1) State.reset).rstHeld = false ∧ 0x30 % 4 = 0 ∧ 0x30 ≤ 0xFC := by decide
theorem witness_WriteThenReadBack : State.reset.rstHeld = false ∧
    ({ State.reset with inputs := [.host (.regWrite 0x0C 32 7), .host (.regRead 0x0C 32)] } : State).inputs =
      .host (.regWrite 0x0C 32 7) :: .host (.regRead 0x0C 32) :: [] := by decide
theorem witness_StatusWriteOneToClear : (facing (.regWrite 0x04 32 0xE) (atFirst .axpyB)).inputs =
    .host (.regWrite 0x04 32 0xE) :: [] ∧ (facing (.regWrite 0x04 32 0xE) (atFirst .axpyB)).rstHeld = false := by decide
/-- The offsets 0x30 and 0xFC; bits 8, 2 and 16; words that differ only in reserved bits. -/
theorem witness_ReservedReadsZeroIgnoresWrites :
    (facing (.regRead 0x30 32) State.reset).inputs = .host (.regRead 0x30 32) :: [] ∧
    (facing (.regWrite 0xFC 32 1) State.reset).inputs = .host (.regWrite 0xFC 32 1) :: [] ∧ 0xFC % 4 = 0 ∧
    (0xFFFFFFF1 : Word).extractLsb' 1 3 = (0x1FF00000 : Word).extractLsb' 1 3 ∧
    (0xFFFFFFFC : Word).extractLsb' 0 2 = (0 : Word).extractLsb' 0 2 ∧
    (0xFFFF8000 : Word).extractLsb' 0 16 = (0x8000 : Word).extractLsb' 0 16 := by decide
theorem witness_OutsideInterfaceRefused :
    (facing (.regRead 0x100 32) State.reset).inputs = .host (.regRead 0x100 32) :: [] ∧
    HostAction.wf State.reset.params (.regRead 0x100 32) = false ∧
    HostAction.wf State.reset.params (.regRead 0xFC 32) = true ∧
    HostAction.wf State.reset.params (.regWrite 0x04 8 1) = false ∧
    HostAction.wf State.reset.params (.regWrite 0x00 32 1) = true := by decide
/-- A start, a completion inside acceptance and by a step, a rejection and a drop. -/
theorem witness_FlagsRiseOnlyBySetters :
    answers (step (presenting 3 accepted)) (fun t => t.status.busy && !accepted.status.busy) = true ∧
    answers (step (presenting 0 State.reset)) (fun t => t.status.done && !State.reset.status.done) = true ∧
    answers (step (atLast .axpyB)) (fun t => t.status.done && !(atLast .axpyB).status.done) = true ∧
    answers (step (presenting 5 State.reset)) (fun t => t.status.err && t.status.ecause == 1#4) = true ∧
    answers (step (presenting 5 (atFirst .axpyB))) (fun t => t.status.drop && !(atFirst .axpyB).status.drop) = true := by
  decide
/-- A completion, a host clear of each bit, an acceptance and a reset. -/
theorem witness_FlagsFallOnlyByClearers :
    answers (step (atLast .axpyB)) (fun t => (atLast .axpyB).status.busy && !t.status.busy) = true ∧
    answers (step (facing .rstAssert (atLast .axpyB))) (fun t => !t.status.busy) = true ∧
    answers (step (facing (.regWrite 0x04 32 2) { State.reset with status := { Status.reset with done := true } }))
      (fun t => !t.status.done) = true ∧
    answers (step (presenting 3 { accepted with status := { Status.reset with err := true, ecause := 3 } }))
      (fun t => !t.status.err && t.status.ecause == 0#4) = true ∧
    answers (step (facing (.regWrite 0x04 32 8) { State.reset with status := { Status.reset with drop := true } }))
      (fun t => !t.status.drop) = true := by decide
theorem witness_OperandsChangeOnlyByHost :
    answers (step (facing (.regWrite 0x28 32 1) State.reset)) (fun t => t.regs != State.reset.regs) = true ∧
    answers (step (facing (.regWrite 0x08 32 1) State.reset)) (fun t => t.ie != State.reset.ie) = true ∧
    answers (step (facing .rstAssert accepted)) (fun t => t.regs != accepted.regs) = true := by decide
theorem witness_ResultChangesOnlyBySatAxpy1 :
    answers (step (presenting 1 { State.reset with regs := { OperandRegs.reset with wide := 1 } }))
      (fun t => t.result != State.reset.result) = true ∧
    answers (step (presenting 2 { State.reset with regs := { OperandRegs.reset with opa := 1 } }))
      (fun t => t.result != State.reset.result) = true ∧
    answers (step (facing .rstAssert { State.reset with result := 1 })) (fun t => t.result != 1) = true := by decide
theorem witness_LittleEndianElements : (0x102 : Nat) ≠ 0x100 ∧ (0x102 : Nat) ≠ 0x100 + 1 := by decide
theorem witness_HostMemoryRoundTrip : State.reset.rstHeld = false ∧ State.reset.status.busy = false ∧
    0x3FE + [0x12#8, 0x34#8].length ≤ State.reset.params.dmemSize ∧
    ({ State.reset with inputs := [.host (.dmemWrite 0x3FE [0x12, 0x34]), .host (.dmemRead 0x3FE 2)] } : State).inputs =
      .host (.dmemWrite 0x3FE [0x12, 0x34]) :: .host (.dmemRead 0x3FE 2) :: [] := by decide
theorem witness_AbsentAddressFaults : State.reset.rstHeld = false ∧
    (facing (.dmemRead 0x3FF 2) State.reset).inputs = .host (.dmemRead 0x3FF 2) :: [] ∧
    HostAction.wf State.reset.params (.dmemRead 0x3FF 2) = false ∧
    HostAction.wf State.reset.params (.dmemRead 0x3FE 2) = true ∧
    HostAction.wf State.reset.params (.dmemWrite 0x400 [1]) = false ∧
    HostAction.wf State.reset.params (.dmemWrite 0x3FF [1]) = true := by decide
/-- A read over the last byte of `y[3]`, all of `y[4]` and the byte past `y`, while BUSY; one at the end of DMEM while idle;
the last byte of `b`. -/
theorem witness_HostReadsDuringRun :
    ((facing (.dmemRead 0x307 4) (atFirst .axpyB)).inputs = .host (.dmemRead 0x307 4) :: [] ∧
      (atFirst .axpyB).rstHeld = false ∧ (atFirst .axpyB).status.busy = true ∧ (atFirst .axpyB).tainted = false ∧
      4 < (atFirst .axpyB).latch.n.toNat ∧ 0x307 + 2 = elemAddr 0x300 4 + 1 ∧ 0x307 + 0 = elemAddr 0x300 3 + 1 ∧
      inVector 0x300 5 (0x307 + 3) = false) ∧
    (State.reset.status.busy = false ∧ 0x3FE + 2 ≤ State.reset.params.dmemSize) ∧
    (GoodState (atFirst .axpyB) ∧ RunProgress (atFirst .axpyB) ∧ inRunRanges (atFirst .axpyB) 0x209 = true ∧
      inVector 0x300 5 0x209 = false) :=
  ⟨by decide, by decide, atFirst_good _, atFirst_progress _, rfl, rfl⟩
/-- A write just past `y`, and a write whose last byte is the first of `y`. -/
theorem witness_HostWritesDuringRun :
    (facing (.dmemWrite 0x30A [1]) (atFirst .axpyB)).inputs = .host (.dmemWrite 0x30A [1]) :: [] ∧
    (atFirst .axpyB).rstHeld = false ∧ (atFirst .axpyB).status.busy = true ∧ 0x30A + [1#8].length ≤ (atFirst .axpyB).params.dmemSize ∧
    inRunRanges (atFirst .axpyB) 0x30A = false ∧
    1 < [1#8, 2#8].length ∧ inRunRanges (atFirst .axpyB) (0x2FF + 1) = true := by decide
/-- A host write, and an element step. -/
theorem witness_MemoryChangesOnlyByWriters :
    GoodState (facing (.dmemWrite 0x100 [0]) (atFirst .axpyB)) ∧
    answers (step (facing (.dmemWrite 0x100 [0]) (atFirst .axpyB)))
      (fun t => readByte t.mem 0x100 != readByte (atFirst .axpyB).mem 0x100) = true ∧
    GoodState (atFirst .axpyB) ∧
    answers (step (atFirst .axpyB)) (fun t => readByte t.mem 0x300 != readByte (atFirst .axpyB).mem 0x300) = true :=
  ⟨good_inputs (atFirst_good _) _, by decide, atFirst_good _, by decide⟩
theorem witness_ResetClearsBlock :
    (facing .rstAssert accepted).inputs = .host .rstAssert :: [] ∧
    ({ facing (.regRead 0x04 32) State.reset with rstHeld := true } : State).rstHeld = true ∧
    ({ facing (.regWrite 0x00 32 1) State.reset with rstHeld := true } : State).inputs =
      .host (.regWrite 0x00 32 1) :: [] := by decide
theorem witness_ResetDuringRun :
    (facing .rstAssert (atFirst .axpyB)).status.busy = true ∧ (facing .rstAssert (atFirst .axpyB)).tainted = false ∧
    (facing .rstAssert (atFirst .axpyB)).inputs = .host .rstAssert :: [] ∧ 4 < (atFirst .axpyB).latch.n.toNat ∧
    inVector 0x300 5 0x30A = false ∧ State.reset.status.busy = false := by decide
theorem witness_ResetHoldAndRelease :
    answers (step (facing .rstRelease { State.reset with rstHeld := true })) (fun t => !t.rstHeld) = true ∧
    answers (step (facing .rstAssert State.reset)) (fun t => t.rstHeld) = true ∧
    ({ facing (.dmemRead 0x100 2) State.reset with rstHeld := true } : State).inputs = .host (.dmemRead 0x100 2) :: [] ∧
    HostAction.dmemRead 0x100 2 ≠ .rstAssert ∧ HostAction.dmemRead 0x100 2 ≠ .rstRelease := by decide
theorem witness_RegBaseOnlyPlaces :
    registerOffset { Params.illustrative with regBase := 0x40000000 } 0x400000FF = some 0xFF ∧
    registerOffset { Params.illustrative with regBase := 0x40000000 } 0x40000100 = none := by decide
theorem witness_InterruptLevel : (∃ s : State, irq s = true) ∧ irq State.reset = false :=
  ⟨⟨{ State.reset with status := { Status.reset with drop := true }, ie := { doneIe := false, errIe := true } }, rfl⟩, rfl⟩

end Sys2Proof.Tests
end

section
/-! PROOFS. The register interface: one step of a register transaction, the bits that a register has, and `irq`. -/

namespace Sys2Proof.Machine

/-! ### One step of a register transaction -/

/-- No register shows the schedule (10_state.md R21). -/
@[simp] theorem readReg_inputs (s : State) (rest : List Slot) (r : Reg) :
    readReg { s with inputs := rest } r = readReg s r := by cases r <;> rfl

theorem step_regRead {s : State} {rest : List Slot} {off width : Nat} {r : Reg}
    (h : s.inputs = .host (.regRead off width) :: rest) (hr : s.rstHeld = false) (hreg : regAt off width = some r) :
    step s = .next { s with inputs := rest, readData := readReg s r } := by
  rw [step_of_host h, ← readReg_inputs s rest r]
  exact hostRegRead_reg hr hreg

theorem step_regWrite {s : State} {rest : List Slot} {off width : Nat} {v : Word} {r : Reg}
    (h : s.inputs = .host (.regWrite off width v) :: rest) (hr : s.rstHeld = false)
    (hreg : regAt off width = some r) (hc : r ≠ .cmd) :
    step s = .next (writeReg v { s with inputs := rest } r) := by
  rw [step_of_host h]
  exact hostRegWrite_reg v hr hreg hc

/-! ### The bits a register has -/

/-- A bit above a register's own width reads 0 (R33). -/
theorem getLsbD_setWidth_of_ge {n k : Nat} (x : BitVec n) (m : Nat) (h : n ≤ k) : (x.setWidth m).getLsbD k = false := by
  rw [BitVec.getLsbD_setWidth, BitVec.getLsbD_of_ge x k h, Bool.and_false]

theorem getLsbD_statusWord_of_ge (st : Status) {k : Nat} (h : 8 ≤ k) : (statusWord st).getLsbD k = false :=
  getLsbD_setWidth_of_ge _ 32 h

theorem getLsbD_ieWord_of_ge (ie : IntEnable) {k : Nat} (h : 2 ≤ k) : (ieWord ie).getLsbD k = false :=
  getLsbD_setWidth_of_ge _ 32 h

/-- Words that agree on a field agree on each bit of it. -/
theorem getLsbD_eq_of_extractLsb'_eq {v v' : Word} {start len : Nat}
    (h : v.extractLsb' start len = v'.extractLsb' start len) (i : Nat) (hi : i < len) :
    v.getLsbD (start + i) = v'.getLsbD (start + i) := by
  have hbit : (v.extractLsb' start len).getLsbD i = (v'.extractLsb' start len).getLsbD i := by rw [h]
  simpa [hi] using hbit

/-- A write to STATUS looks at bits 3:1 only (R25). -/
theorem statusClear_congr {v v' : Word} (h : v.extractLsb' 1 3 = v'.extractLsb' 1 3) (st : Status) :
    statusClear v st = statusClear v' st := by
  have h1 : v.getLsbD 1 = v'.getLsbD 1 := getLsbD_eq_of_extractLsb'_eq h 0 (by decide)
  have h2 : v.getLsbD 2 = v'.getLsbD 2 := getLsbD_eq_of_extractLsb'_eq h 1 (by decide)
  have h3 : v.getLsbD 3 = v'.getLsbD 3 := getLsbD_eq_of_extractLsb'_eq h 2 (by decide)
  simp only [statusClear, h1, h2, h3]

/-- A write to IE looks at bits 1:0 only (R26). -/
theorem ieOfWord_congr {v v' : Word} (h : v.extractLsb' 0 2 = v'.extractLsb' 0 2) : ieOfWord v = ieOfWord v' := by
  have h0 : v.getLsbD 0 = v'.getLsbD 0 := getLsbD_eq_of_extractLsb'_eq h 0 (by decide)
  have h1 : v.getLsbD 1 = v'.getLsbD 1 := getLsbD_eq_of_extractLsb'_eq h 1 (by decide)
  simp only [ieOfWord, h0, h1]

/-- What a 16-bit register stores is bits 15:0 of the written word (R27, R30). -/
theorem setWidth_half (v : Word) : v.setWidth 16 = v.extractLsb' 0 16 :=
  BitVec.setWidth_eq_extractLsb' (by decide)

/-- R25's clearing of each flag, as a choice on its bit of the written word. -/
theorem statusClear_eq_ite (v : Word) (st : Status) : statusClear v st =
    { busy := st.busy
      done := if v.getLsbD 1 then false else st.done
      err := if v.getLsbD 2 then false else st.err
      drop := if v.getLsbD 3 then false else st.drop
      ecause := if v.getLsbD 2 then 0 else st.ecause } := by
  have hclear : ∀ flag bit : Bool, (flag && !bit) = if bit then false else flag := by decide
  simp only [statusClear, hclear]

/-! ### The three laws of reserved bits -/

/-- A transaction at a reserved offset reads 0 and stores nothing (R33). -/
theorem step_reserved (s : State) (rest : List Slot) (off : Nat) (v : Word) (hr : s.rstHeld = false)
    (h4 : off % 4 = 0) (hlo : 0x30 ≤ off) (hhi : off ≤ 0xFC) :
    (s.inputs = .host (.regRead off 32) :: rest → step s = .next { s with inputs := rest, readData := 0 }) ∧
    (s.inputs = .host (.regWrite off 32 v) :: rest → step s = .next { s with inputs := rest }) := by
  have hreg : regAt off 32 = some .reserved := regAt_reserved h4 hlo hhi
  exact ⟨fun h => step_regRead h hr hreg, fun h => step_regWrite h hr hreg (by decide)⟩

/-- Every reserved bit of a register reads 0 (R33). -/
theorem readReg_reserved_bits (s : State) (k : Nat) :
    (8 ≤ k → (readReg s .status).getLsbD k = false) ∧ (2 ≤ k → (readReg s .ie).getLsbD k = false) ∧
    (16 ≤ k → (readReg s .alpha).getLsbD k = false ∧ (readReg s .opa).getLsbD k = false ∧
      (readReg s .opb).getLsbD k = false) :=
  ⟨getLsbD_statusWord_of_ge s.status, getLsbD_ieWord_of_ge s.ie, fun h =>
    ⟨getLsbD_setWidth_of_ge s.regs.alpha 32 h, getLsbD_setWidth_of_ge s.regs.opa 32 h,
      getLsbD_setWidth_of_ge s.regs.opb 32 h⟩⟩

/-- Words that differ only in a register's reserved bits store the same (R33). -/
theorem writeReg_reserved_bits (s : State) (v v' : Word) :
    (v.extractLsb' 1 3 = v'.extractLsb' 1 3 → writeReg v s .status = writeReg v' s .status) ∧
    (v.extractLsb' 0 2 = v'.extractLsb' 0 2 → writeReg v s .ie = writeReg v' s .ie) ∧
    (v.extractLsb' 0 16 = v'.extractLsb' 0 16 → writeReg v s .alpha = writeReg v' s .alpha ∧
      writeReg v s .opa = writeReg v' s .opa ∧ writeReg v s .opb = writeReg v' s .opb) := by
  refine ⟨fun h => ?_, fun h => ?_, fun h => ?_⟩
  · simp only [writeReg, statusClear_congr h s.status]
  · simp only [writeReg, ieOfWord_congr h]
  · simp only [writeReg, setWidth_half, h, and_self]

/-- Settles O43: the reserved offsets, then the reserved bits as read, then as written. -/
theorem reservedReadsZeroIgnoresWrites : Obligations.ReservedReadsZeroIgnoresWrites :=
  ⟨step_reserved, readReg_reserved_bits, writeReg_reserved_bits⟩

/-- Settles O42: STATUS is the register at offset 0x04, and its write is R25's clearing. -/
theorem statusWriteOneToClear : Obligations.StatusWriteOneToClear := by
  intro s rest v hr h
  rw [step_regWrite h hr (r := .status) rfl (by decide), ← statusClear_eq_ite]
  rfl

/-! ### The interrupt output -/

/-- R36's formula for `irq`. -/
theorem irq_iff (s : State) : irq s = true ↔
    (s.status.done = true ∧ s.ie.doneIe = true) ∨
    ((s.status.err = true ∨ s.status.drop = true) ∧ s.ie.errIe = true) := by
  simp only [irq, Bool.or_eq_true, Bool.and_eq_true]

/-- A reset block asks for no interrupt, whatever its parameters (R200). -/
theorem irq_resetWith (p : Params) : irq (State.resetWith p) = false := rfl

/-- Settles O45: the formula in every state, and its value after reset. -/
theorem interruptLevel : Obligations.InterruptLevel := ⟨irq_iff, irq_resetWith⟩

end Sys2Proof.Machine
end

section
/-! PROOFS. The byte order of DMEM (20_memory.md R62). -/

namespace Sys2Proof.Machine

/-- The low byte of an element goes to its own address. -/
theorem readByte_write16_low (m : Memory) (a : Nat) (v : Half) :
    readByte (write16 m a v) a = v.extractLsb' 0 8 := by
  rw [readByte_write16, if_neg (Nat.ne_of_lt a.lt_succ_self), if_pos rfl]

/-- The high byte of an element goes to the odd neighbour. -/
theorem readByte_write16_high (m : Memory) (a : Nat) (v : Half) :
    readByte (write16 m a v) (a + 1) = v.extractLsb' 8 8 := by
  rw [readByte_write16, if_pos rfl]

/-- The frame of a 16-bit write. -/
theorem readByte_write16_of_ne (m : Memory) {a b : Nat} (v : Half) (h0 : b ≠ a) (h1 : b ≠ a + 1) :
    readByte (write16 m a v) b = readByte m b := by
  rw [readByte_write16, if_neg h1, if_neg h0]

/-- Settles O49: the two bytes of a read, the two bytes of a write with its frame, and the round trip. -/
theorem littleEndianElements : Obligations.LittleEndianElements := fun m a v =>
  ⟨rfl, readByte_write16_low m a v, readByte_write16_high m a v,
    fun _ h0 h1 => readByte_write16_of_ne m v h0 h1, read16_write16_same m a v⟩

end Sys2Proof.Machine
end

section
/-! PROOFS. The decoder's map, and the step that rejects an illegal word (30_encoding.md R94, R95). -/

namespace Sys2Proof.Machine

/-- Every word above the last opcode is illegal: its opcode is reserved, or a reserved bit is set (R94). -/
theorem decode_error_of_four_lt {w : Word} (hw : 4 < w.toNat) :
    decode w = .error (if w.toNat < 16 then .reservedOpcode else .reservedBits) := by
  rw [decode_eq, if_neg (by omega), if_neg (by omega), if_neg (by omega), if_neg (by omega), if_neg (by omega)]
  exact (apply_ite Except.error _ _ _).symm

/-- An idle block answers an illegal word with the rejection alone (60_exceptions.md R172). -/
theorem step_illegal {s : State} {w : Word} {rest : List Slot} {e : IllegalWord} (h : s.inputs = cmdSlot w :: rest)
    (hr : s.rstHeld = false) (hb : s.status.busy = false) (hd : decode w = .error e) :
    step s = .next { s with inputs := rest, status := s.status.rejected .illegal } := by
  rw [step_cmd h hr]
  exact cmdWrite_illegal hb hd

/-- Settles O1: R94's case analysis, then the rejection of every word it finds illegal. -/
theorem decodeFollowsOpcodeMap : Obligations.DecodeFollowsOpcodeMap :=
  ⟨decode_eq, fun _ _ _ h hr hb hw => step_illegal h hr hb (decode_error_of_four_lt hw)⟩

end Sys2Proof.Machine
end

section
/-! PROOFS. The command flow (40_command_flow.md): what one command word does, and how one step can change STATUS. -/

namespace Sys2Proof.Machine

/-! ### What each kind of command does -/

/-- Every command is dropped while BUSY (R111). -/
theorem exec_busy (i : Instr) {s : State} (hb : s.status.busy = true) :
    exec i s = .next { s with status := s.status.dropped } := by
  rcases exec_spec i s with ⟨-, h⟩ | ⟨h, -⟩ | ⟨h, -⟩ | ⟨-, -, h, -⟩
  · exact h
  all_goals simp [hb] at h

theorem exec_nop_idle {s : State} (hb : s.status.busy = false) :
    exec .nop s = .next { s with status := s.status.completed } := present_idle hb

theorem VecOp.instr_injective : Function.Injective VecOp.instr
  | .axpyB, .axpyB, _ => rfl
  | .axpyV, .axpyV, _ => rfl

theorem VecOp.instr_not_immediate (op : VecOp) : ¬(op.instr = .nop ∨ op.instr = .sat ∨ op.instr = .axpy1) := by
  cases op <;> decide

/-- On an idle block NOP, SAT and AXPY1 change RESULT at most, and STATUS says completed (R114). -/
theorem exec_immediate_idle {i : Instr} {s : State} (hb : s.status.busy = false)
    (hi : i = .nop ∨ i = .sat ∨ i = .axpy1) :
    ∃ r : Word, exec i s = .next { s with result := r, status := s.status.completed } := by
  rcases exec_spec i s with ⟨hb', -⟩ | ⟨-, -, h⟩ | ⟨-, -, r, h⟩ | ⟨op, rfl, -⟩
  · simp [hb] at hb'
  · exact ⟨s.result, h⟩
  · exact ⟨r.signExtend 32, h⟩
  · exact absurd hi op.instr_not_immediate

/-- The three answers of an idle block to a vector command: rejected, complete at once, or started (R112, R113, R115). -/
theorem exec_vector_idle (op : VecOp) {s : State} (hb : s.status.busy = false) :
    (∃ c, operandCause s = some c ∧ exec op.instr s = .next { s with status := s.status.rejected c }) ∨
    (operandCause s = none ∧ s.regs.len.toNat = 0 ∧
      exec op.instr s = .next { s with latch := latchedRecord op s, status := s.status.completed }) ∨
    (operandCause s = none ∧ 0 < s.regs.len.toNat ∧
      exec op.instr s = .next { s with latch := latchedRecord op s, idx := 0, status := s.status.started
                                       d0 := s.mem, tainted := false }) := by
  rcases exec_spec op.instr s with ⟨hb', -⟩ | ⟨-, hi, -⟩ | ⟨-, hi, -⟩ | ⟨op', hop, -, h⟩
  · simp [hb] at hb'
  · exact absurd (.inl hi) op.instr_not_immediate
  · exact absurd (.inr hi) op.instr_not_immediate
  · obtain rfl := VecOp.instr_injective hop
    exact h

/-- STATUS as the host reads it when the first command since reset has completed (R117). -/
theorem statusWord_completed_reset : statusWord Status.reset.completed = 0x00000002#32 := by decide

/-! ### Words with a reserved bit set -/

/-- A reserved bit makes a word illegal whatever its OP (30_encoding.md R94). -/
theorem decode_reservedBits {w : Word} (h : w.extractLsb' 4 28 ≠ 0#28) : decode w = .error .reservedBits := if_pos h

/-- R95's other words, for every OP at once. -/
theorem otherWordsIllegal (op : BitVec 4) : OtherWordsIllegal op :=
  fun _ _ _ h hr hb _ hw => step_illegal h hr hb (decode_reservedBits hw)

/-! ### How one step can change STATUS -/

/-- What the acceptance of command word `w` makes of STATUS (R110): rejected, completed, or, for a vector command,
started. -/
def Status.AcceptedAs (w : Word) (st st' : Status) : Prop :=
  (∃ c, st' = st.rejected c) ∨ st' = st.completed ∨ ∃ op : VecOp, decode w = .ok op.instr ∧ st' = st.started

theorem Status.AcceptedAs.drop_eq {w : Word} {st st' : Status} (h : st.AcceptedAs w st') : st'.drop = st.drop := by
  obtain ⟨c, rfl⟩ | rfl | ⟨op, -, rfl⟩ := h <;> rfl

theorem exec_acceptedAs {i : Instr} {w : Word} {s t : State} (hb : s.status.busy = false) (hd : decode w = .ok i)
    (h : exec i s = .next t) : s.status.AcceptedAs w t.status := by
  rcases exec_spec i s with ⟨hb', -⟩ | ⟨-, -, he⟩ | ⟨-, -, r, he⟩ | ⟨op, rfl, -, ⟨c, -, he⟩ | ⟨-, -, he⟩ | ⟨-, -, he⟩⟩
  · simp [hb] at hb'
  all_goals obtain rfl := Host.Outcome.next.inj (he.symm.trans h)
  · exact .inr (.inl rfl)
  · exact .inr (.inl rfl)
  · exact .inl ⟨c, rfl⟩
  · exact .inr (.inl rfl)
  · exact .inr (.inr ⟨op, hd, rfl⟩)

/-- The ways in which a step from `s` to `t` can treat STATUS (10_state.md R35, by cause). -/
inductive StatusStep (s t : State) : Prop where
  | kept (status : t.status = s.status)
  | finished (turn : sequencerNext s = true) (running : s.status.busy = true) (idx : t.idx = s.latch.n.toNat)
      (status : t.status = { s.status with busy := false, done := true })
  | acknowledged (v : Word) (rest : List Slot) (turn : s.inputs = .host (.regWrite 0x04 32 v) :: rest)
      (status : t.status = statusClear v s.status)
  | dropped (w : Word) (rest : List Slot) (turn : s.inputs = cmdSlot w :: rest) (running : s.status.busy = true)
      (status : t.status = s.status.dropped)
  | accepted (w : Word) (rest : List Slot) (turn : s.inputs = cmdSlot w :: rest) (idle : s.status.busy = false)
      (status : s.status.AcceptedAs w t.status)
  | reset (turn : resets s) (status : t.status = Status.reset)

/-- A command word drops or is accepted. -/
theorem cmdWrite_statusStep {s t : State} {w : Word} {rest : List Slot} (hin : s.inputs = cmdSlot w :: rest)
    (h : cmdWrite w { s with inputs := rest } = .next t) : StatusStep s t := by
  rcases cmdWrite_spec h with ⟨hb, rfl⟩ | ⟨hb, e, -, rfl⟩ | ⟨hb, i, hd, he⟩
  · exact .dropped w rest hin hb rfl
  · exact .accepted w rest hin hb (.inl ⟨.illegal, rfl⟩)
  · exact .accepted w rest hin hb (exec_acceptedAs (s := { s with inputs := rest }) hb hd he)

/-- The sequencer touches STATUS only when it completes the command (R116). -/
theorem sequencerTurn_statusStep {s t : State} (hn : sequencerNext s = true)
    (h : sequencerTurn { s with inputs := s.inputs.tail } = .next t) : StatusStep s t := by
  obtain rfl | ⟨hb, ht⟩ := sequencerTurn_spec h
  · exact .kept rfl
  · have hidx : t.idx = s.idx + stepCount s := congrArg State.idx ht
    have hst : t.status = if s.idx + stepCount s = s.latch.n.toNat then { s.status with busy := false, done := true }
        else s.status := congrArg State.status ht
    split_ifs at hst with hend
    · exact .finished hn hb (hidx.trans hend) hst
    · exact .kept hst

theorem writeReg_status (v : Word) (s : State) {r : Reg} (hr : r ≠ .status) : (writeReg v s r).status = s.status := by
  cases r with
  | status => exact absurd rfl hr
  | _ => rfl

/-- Only the register at offset 0x04 has its write change STATUS (R21, R25). -/
theorem writeReg_statusStep {s : State} {off : Nat} {v : Word} {r : Reg} {rest : List Slot}
    (hin : s.inputs = .host (.regWrite off 32 v) :: rest) (hreg : regAt off 32 = some r) :
    StatusStep s (writeReg v { s with inputs := rest } r) := by
  by_cases hr : r = .status
  · subst hr
    obtain ⟨-, -, -, hoff⟩ := regAt_some hreg
    obtain rfl : off = 0x04 := hoff (by decide)
    exact .acknowledged v rest hin rfl
  · exact .kept (writeReg_status v _ hr)

/-- Every step treats STATUS in one of these ways. -/
theorem step_statusStep {s t : State} (h : step s = .next t) : StatusStep s t := by
  obtain ⟨hn, he⟩ | ⟨a, rest, hin, he⟩ := step_cases s
  · exact sequencerTurn_statusStep hn (he ▸ h)
  · rcases hostTurn_spec (he ▸ h) with ⟨off, width, r, -, -, -, rfl⟩ | ⟨w, rfl, -, hc⟩ | ⟨off, v, r, rfl, -, -, hreg, rfl⟩ |
      ⟨addr, count, -, -, -, rfl⟩ | ⟨addr, bytes, -, -, -, rfl⟩ | ⟨rfl, rfl⟩ | ⟨-, rfl⟩
    · exact .kept rfl
    · exact cmdWrite_statusStep hin hc
    · exact writeReg_statusStep hin hreg
    · exact .kept rfl
    · exact .kept rfl
    · exact .reset ⟨rest, hin⟩ rfl
    · exact .kept rfl

/-! ### Who can lower each flag -/

theorem StatusStep.busy_falls {s t : State} (h : StatusStep s t) (h1 : s.status.busy = true)
    (h0 : t.status.busy = false) :
    (sequencerNext s = true ∧ t.idx = s.latch.n.toNat ∧ t.status.done = true) ∨ resets s := by
  cases h with
  | finished turn _ idx status => exact .inl ⟨turn, idx, by rw [status]⟩
  | reset turn _ => exact .inr turn
  | accepted _ _ _ idle _ => simp [idle] at h1
  | kept status | acknowledged _ _ _ status | dropped _ _ _ _ status =>
    simp [status, statusClear, Status.dropped, h1] at h0

/-- A property of the flags that neither a completion nor a drop ends, and whose clearing bit is `k`, is ended only by
that bit, an acceptance or reset. -/
theorem StatusStep.ends {s t : State} {P : Status → Prop} {k : Nat} (h : StatusStep s t)
    (hclear : ∀ v st, P st → ¬P (statusClear v st) → v.getLsbD k = true)
    (hfinish : ∀ st, P st → P { st with busy := false, done := true }) (hdrop : ∀ st : Status, P st → P st.dropped)
    (h1 : P s.status) (h0 : ¬P t.status) : clearsStatusBit s k ∨ acceptsWord s ∨ resets s := by
  cases h with
  | kept status => exact absurd h1 (status ▸ h0)
  | finished _ _ _ status => exact absurd (hfinish _ h1) (status ▸ h0)
  | acknowledged v rest turn status => exact .inl ⟨v, rest, turn, hclear v _ h1 (status ▸ h0)⟩
  | dropped _ _ _ _ status => exact absurd (hdrop _ h1) (status ▸ h0)
  | accepted w rest turn idle _ => exact .inr (.inl ⟨w, rest, turn, idle⟩)
  | reset turn _ => exact .inr (.inr turn)

theorem StatusStep.done_falls {s t : State} (h : StatusStep s t) (h1 : s.status.done = true)
    (h0 : t.status.done = false) : clearsStatusBit s 1 ∨ acceptsWord s ∨ resets s :=
  h.ends (P := fun st => st.done = true) (fun _ _ hp => by simp [statusClear, hp]) (fun _ _ => rfl) (fun _ => id) h1
    (ne_true_of_eq_false h0)

theorem StatusStep.err_falls {s t : State} (h : StatusStep s t) (h1 : s.status.err = true)
    (h0 : t.status.err = false) : clearsStatusBit s 2 ∨ acceptsWord s ∨ resets s :=
  h.ends (P := fun st => st.err = true) (fun _ _ hp => by simp [statusClear, hp]) (fun _ => id) (fun _ => id) h1
    (ne_true_of_eq_false h0)

theorem StatusStep.ecause_falls {s t : State} (h : StatusStep s t) (h1 : s.status.ecause ≠ 0)
    (h0 : t.status.ecause = 0) : clearsStatusBit s 2 ∨ acceptsWord s ∨ resets s :=
  h.ends (P := fun st => st.ecause ≠ 0)
    (fun _ _ hp hn => by_contra fun hv => hn (by simpa only [statusClear, if_neg hv] using hp)) (fun _ => id) (fun _ => id) h1
    (not_not.2 h0)

theorem StatusStep.drop_falls {s t : State} (h : StatusStep s t) (h1 : s.status.drop = true)
    (h0 : t.status.drop = false) : clearsStatusBit s 3 ∨ resets s := by
  cases h with
  | acknowledged v rest turn status =>
    exact .inl ⟨v, rest, turn, by simpa [status, statusClear, h1] using h0⟩
  | reset turn _ => exact .inr turn
  | accepted _ _ _ _ status => simp [status.drop_eq, h1] at h0
  | kept status | finished _ _ _ status | dropped _ _ _ _ status => simp [status, Status.dropped, h1] at h0

/-! ### The obligations of the command flow -/

/-- Settles O23: the drop of any word, the drop of any command, and who can lower DROP. -/
theorem busyDropsCommandWord : Obligations.BusyDropsCommandWord :=
  ⟨fun s w rest h hr hb => (step_cmd h hr).trans (cmdWrite_busy (s := { s with inputs := rest }) w hb),
    fun _ i hb => exec_busy i hb, fun _ _ h => (step_statusStep h).drop_falls⟩

/-- Settles O59, flag by flag. -/
theorem flagsFallOnlyByClearers : Obligations.FlagsFallOnlyByClearers := fun _ _ h =>
  have hst := step_statusStep h
  ⟨hst.busy_falls, hst.done_falls, hst.err_falls, hst.ecause_falls, hst.drop_falls⟩

/-- Settles O14: the encoding, the illegal neighbours, NOP while idle and while BUSY, and the example from reset. -/
theorem nopCommand : Obligations.NopCommand :=
  ⟨rfl, otherWordsIllegal 0x0, fun _ hb => exec_nop_idle hb, fun _ hb => exec_busy .nop hb,
    fun p => ⟨_, exec_nop_idle (s := State.resetWith p) rfl, statusWord_completed_reset⟩⟩

/-- Settles O17: STATUS says completed, so the block is idle and the sequencer has no step. -/
theorem immediateCommandsComplete : Obligations.ImmediateCommandsComplete := by
  intro s i hb hi
  obtain ⟨r, he⟩ := exec_immediate_idle hb hi
  exact ⟨_, he, hb, rfl, sequencerTurn_idle hb⟩

/-- Settles O18: validation excludes the rejection, and LEN chooses between the two other answers. -/
theorem vectorCommandStarts : Obligations.VectorCommandStarts := by
  intro s op hb hv
  rcases exec_vector_idle op hb with ⟨c, hc, -⟩ | ⟨-, hn, he⟩ | ⟨-, hn, he⟩
  · simp [hv] at hc
  · exact ⟨fun _ => he, fun h => absurd (BitVec.eq_of_toNat_eq hn) h⟩
  · exact ⟨fun h => absurd hn (by simp [h]), fun _ => ⟨s.mem, false, he⟩⟩

end Sys2Proof.Machine
end

section
/-! PROOFS. Saturation (41_saturation.md): the laws of `q15_sat`, the bit form of the clamp unit, and the SAT command. -/

namespace Sys2Proof.Machine

/-! ### The laws of `q15_sat` -/

theorem q15Sat_of_ge {v : Int} (h : 32767 ≤ v) : q15Sat v = 32767 := by
  unfold q15Sat; split_ifs <;> omega

theorem q15Sat_of_le {v : Int} (h : v ≤ -32768) : q15Sat v = -32768 := by
  unfold q15Sat; split_ifs <;> omega

theorem q15Sat_of_mem {v : Int} (h : -32768 ≤ v) (h' : v ≤ 32767) : q15Sat v = v := by
  rw [q15Sat, if_neg (not_lt.2 h'), if_neg (not_lt.2 h)]

/-- R134's closed form, by the three ranges of R130. -/
theorem q15Sat_eq_min_max (v : Int) : q15Sat v = min 32767 (max (-32768) v) := by
  rcases le_total 32767 v with hge | hlt
  · rw [q15Sat_of_ge hge]; omega
  · rcases le_total v (-32768) with hle | hgt
    · rw [q15Sat_of_le hle]; omega
    · rw [q15Sat_of_mem hgt hlt]; omega

theorem q15Sat_idempotent (v : Int) : q15Sat (q15Sat v) = q15Sat v :=
  q15Sat_of_mem (q15Sat_bounds v).1 (q15Sat_bounds v).2

theorem q15Sat_monotone : Monotone q15Sat := fun v w h => by
  simp only [q15Sat_eq_min_max]
  gcongr

theorem q15Sat_eq_upper_iff (v : Int) : q15Sat v = 32767 ↔ v ≥ 32767 := by
  rw [q15Sat_eq_min_max]; omega

theorem q15Sat_eq_lower_iff (v : Int) : q15Sat v = -32768 ↔ v ≤ -32768 := by
  rw [q15Sat_eq_min_max]; omega

/-- Settles O6, law by law. -/
theorem saturateLaws : Obligations.SaturateLaws :=
  ⟨q15Sat_eq_min_max, fun _ => q15Sat_of_mem, q15Sat_idempotent, fun _ _ h => q15Sat_monotone h,
    q15Sat_eq_upper_iff, q15Sat_eq_lower_iff⟩

/-- Settles O5: the three ranges of R130, then the bounds. -/
theorem saturateClampsToQ15 : Obligations.SaturateClampsToQ15 := fun v =>
  ⟨fun h => q15Sat_of_ge h.le, fun h => q15Sat_of_le h.le, q15Sat_of_mem, q15Sat_bounds v⟩

/-! ### The bit form of the clamp unit -/

theorem topBits_eq_zero_iff (v : Word) : v.extractLsb' 15 17 = 0#17 ↔ 0 ≤ v.toInt ∧ v.toInt ≤ 32767 := by
  have hv := v.isLt
  rw [← BitVec.toNat_inj, BitVec.extractLsb'_toNat, BitVec.toNat_ofNat, BitVec.toInt_eq_toNat_cond]
  omega

theorem topBits_eq_allOnes_iff (v : Word) :
    v.extractLsb' 15 17 = BitVec.allOnes 17 ↔ -32768 ≤ v.toInt ∧ v.toInt < 0 := by
  have hv := v.isLt
  rw [← BitVec.toNat_inj, BitVec.extractLsb'_toNat, BitVec.toNat_allOnes, BitVec.toInt_eq_toNat_cond]
  omega

/-- Bits 31:15 are all equal exactly when the value is in range (R131). -/
theorem topBits_equal_iff (v : Word) : (v.extractLsb' 15 17 = 0#17 ∨ v.extractLsb' 15 17 = BitVec.allOnes 17) ↔
    -32768 ≤ v.toInt ∧ v.toInt ≤ 32767 := by
  rw [topBits_eq_zero_iff, topBits_eq_allOnes_iff]; omega

/-- Bit 31 is the sign (00_scope.md R9). -/
theorem getLsbD_signBit (v : Word) : v.getLsbD 31 = decide (v.toInt < 0) := by
  rw [← BitVec.msb_eq_toInt, BitVec.msb_eq_getLsbD_last]

theorem q15SaturationClamp_of_mem {v : Word} (h : -32768 ≤ v.toInt) (h' : v.toInt ≤ 32767) :
    q15SaturationClamp v = v.extractLsb' 0 16 := by
  rw [q15SaturationClamp, q15Sat_of_mem h h', ← setWidth_half]
  exact BitVec.signExtend_eq_setWidth_of_le v (by decide)

/-- The bit-level form of the unit (R131). -/
theorem q15SaturationClamp_bits (v : Word) : q15SaturationClamp v =
    if v.extractLsb' 15 17 = 0#17 ∨ v.extractLsb' 15 17 = BitVec.allOnes 17 then v.extractLsb' 0 16
    else if v.getLsbD 31 = true then 0x8000#16
    else 0x7FFF#16 := by
  simp only [topBits_equal_iff, getLsbD_signBit, decide_eq_true_eq]
  split_ifs with hin hneg
  · exact q15SaturationClamp_of_mem hin.1 hin.2
  · rw [q15SaturationClamp, q15Sat_of_le (by omega)]; rfl
  · rw [q15SaturationClamp, q15Sat_of_ge (by omega)]; rfl

/-- Settles O7: the unit's integer, then its bits. -/
theorem clampUnitBitForm : Obligations.ClampUnitBitForm := ⟨toInt_q15SaturationClamp, q15SaturationClamp_bits⟩

/-! ### The SAT command -/

/-- SAT on an idle block: RESULT and STATUS change, nothing else (R132, R114). -/
theorem exec_sat_idle {s : State} (hb : s.status.busy = false) : exec .sat s = .next { s with
    result := (q15SaturationClamp s.regs.wide).signExtend 32, status := s.status.completed } := by
  rw [exec, execSat, present_idle hb]; rfl

/-- STATUS as the host reads it once a command has completed on an idle block with DROP clear (10_state.md R24). -/
theorem statusWord_completed {st : Status} (hb : st.busy = false) (hd : st.drop = false) :
    statusWord st.completed = 0x00000002#32 := by
  have hst : st.completed = Status.reset.completed := by simp only [Status.completed, Status.reset, hb, hd]
  rw [hst, statusWord_completed_reset]

/-- Settles O15: the encoding, the illegal neighbours, SAT while idle and while BUSY, R132's table of WIDE and RESULT, and
the STATUS word. -/
theorem satCommand : Obligations.SatCommand := by
  refine ⟨rfl, otherWordsIllegal 0x1, fun s hb => exec_sat_idle hb, fun s hb => exec_busy .sat hb,
    fun s hb c hc hw => ⟨_, exec_sat_idle hb, ?_⟩, fun s hb hd => ⟨_, exec_sat_idle hb, statusWord_completed hb hd⟩⟩
  change (q15SaturationClamp s.regs.wide).signExtend 32 = c.2
  rw [hw]
  fin_cases hc <;> rfl

end Sys2Proof.Machine
end

section
/-! PROOFS. The AXPY kernel (42_axpy_kernel.md): the floor shift, the ranges inside one element, the 32-bit unit, the corner
cases, and the AXPY1 command. -/

namespace Sys2Proof.Machine

/-! ### The floor shift -/

theorem asr_fifteen (v : Int) : asr v 15 = v / 32768 := rfl

/-- `asr v 15` is the floor of `v / 32768` (R143). -/
theorem asr_fifteen_floor (v : Int) : 32768 * asr v 15 ≤ v ∧ v < 32768 * (asr v 15 + 1) := by
  rw [asr_fifteen]; omega

/-- An exact multiple loses nothing to the shift: the least alpha negates `b` (R157). -/
theorem asr_fifteen_min_mul (b : Int) : asr (-32768 * b) 15 = -b := by
  rw [asr_fifteen]; omega

/-- Settles O8: the floor for every integer, then the rule's four examples. -/
theorem shiftRoundsDown : Obligations.ShiftRoundsDown := ⟨asr_fifteen_floor, by decide⟩

/-! ### The ranges of the product, the scaled value and the sum -/

/-- The lower bound of the product: a factor of either sign is least against the other's opposite extreme (R141). -/
theorem le_product (x y : Half) : -1073709056 ≤ x.toInt * y.toInt := by
  obtain ⟨hx, hx'⟩ := half_toInt_bounds x
  obtain ⟨hy, hy'⟩ := half_toInt_bounds y
  rcases le_total 0 x.toInt with hpos | hneg
  · have h : x.toInt * -32768 ≤ x.toInt * y.toInt := mul_le_mul_of_nonneg_left hy hpos
    omega
  · have h : x.toInt * 32767 ≤ x.toInt * y.toInt := mul_le_mul_of_nonpos_left hy' hneg
    omega

/-- R141's range of the product. -/
theorem product_bounds (x y : Half) : -1073709056 ≤ x.toInt * y.toInt ∧ x.toInt * y.toInt ≤ 1073741824 :=
  ⟨le_product x y, BitVec.toInt_mul_toInt_le⟩

/-- R141's range of the scaled value: the shift is monotone, and exact at both ends of the product's range. -/
theorem scaled_bounds (x y : Half) : -32767 ≤ asr (x.toInt * y.toInt) 15 ∧ asr (x.toInt * y.toInt) 15 ≤ 32768 := by
  have hp := product_bounds x y
  have hf := asr_fifteen_floor (x.toInt * y.toInt)
  omega

/-- R141's range of the sum. -/
theorem sum_bounds (a b alpha : Half) :
    -65535 ≤ a.toInt + asr (alpha.toInt * b.toInt) 15 ∧ a.toInt + asr (alpha.toInt * b.toInt) 15 ≤ 65535 := by
  have ha := half_toInt_bounds a
  have hs := scaled_bounds alpha b
  omega

/-- Settles O9: the three ranges, then the inputs that attain each bound. -/
theorem intermediateRanges : Obligations.IntermediateRanges := by
  refine ⟨fun a b alpha => ?_, by decide⟩
  obtain ⟨hp, hp'⟩ := product_bounds alpha b
  obtain ⟨hs, hs'⟩ := scaled_bounds alpha b
  exact ⟨hp, hp', hs, hs', sum_bounds a b alpha⟩

/-! ### The 32-bit unit -/

/-- No product of two Q15 values overflows 32 bits. -/
theorem toInt_product (x y : Half) : (BitVec.ofInt 32 (x.toInt * y.toInt)).toInt = x.toInt * y.toInt := by
  have hp := product_bounds x y
  exact toInt_ofInt_word (by omega) (by omega)

/-- Sign-extending bits 31:15 is the arithmetic shift by 15 (R144). -/
theorem toInt_signExtend_topBits (v : Word) : ((v.extractLsb' 15 17).signExtend 32).toInt = asr v.toInt 15 := by
  have hv := v.isLt
  rw [BitVec.toInt_signExtend_of_le (by decide), BitVec.toInt_eq_toNat_cond, BitVec.extractLsb'_toNat,
    Nat.shiftRight_eq_div_pow, BitVec.toInt_eq_toNat_cond, asr_fifteen]
  omega

/-- No sum of the unit overflows 32 bits. -/
theorem toInt_sum (a b alpha : Half) :
    (BitVec.ofInt 32 (a.toInt + asr (alpha.toInt * b.toInt) 15)).toInt = a.toInt + asr (alpha.toInt * b.toInt) 15 := by
  have hs := sum_bounds a b alpha
  exact toInt_ofInt_word (by omega) (by omega)

/-- `axpy_elem` is the clamp of the exact sum, and of nothing before it (R140, R142). -/
theorem axpyElem_eq (a b alpha : Int) : axpyElem a b alpha = q15Sat (a + asr (alpha * b) 15) := rfl

/-- Settles O11, signal by signal: each internal signal holds its exact integer, so the clamp sees the sum of `axpy_elem`. -/
theorem datapathComputesElement : Obligations.DatapathComputesElement := by
  intro a b alpha product scaled sum
  have hproduct : product.toInt = alpha.toInt * b.toInt := toInt_product alpha b
  have hscaled : scaled.toInt = asr product.toInt 15 := toInt_signExtend_topBits product
  have ha : (a.signExtend 32).toInt = a.toInt := BitVec.toInt_signExtend_of_le (by decide)
  have hsum : sum.toInt = a.toInt + scaled.toInt := by
    simp only [sum, ha, hscaled, hproduct]
    exact toInt_sum a b alpha
  have hunit : axpyElemUnit a b alpha = q15SaturationClamp sum := rfl
  refine ⟨hproduct, ?_, hsum, hunit, ?_⟩
  · rw [← hscaled, BitVec.ofInt_toInt]
  · rw [hunit, toInt_q15SaturationClamp, hsum, hscaled, hproduct, axpyElem_eq]

/-! ### One saturation, and the corner cases -/

/-- Settles O10: the closed form for all integers, then the input on which an early clamp differs. -/
theorem saturatesOnce : Obligations.SaturatesOnce := ⟨axpyElem_eq, by decide⟩

/-- The least alpha subtracts `b` (R157). -/
theorem axpyElem_min_alpha (a b : Int) : axpyElem a b (-32768) = q15Sat (a - b) := by
  rw [axpyElem_eq, asr_fifteen_min_mul, sub_eq_add_neg]

/-- A zero alpha leaves the clamp of `a`, which is `a` itself for a Q15 value (R156). -/
theorem axpyElem_zero_alpha {a : Int} (b : Int) (h : -32768 ≤ a) (h' : a ≤ 32767) : axpyElem a b 0 = a := by
  rw [axpyElem_eq, zero_mul, asr_fifteen, Int.zero_ediv, add_zero, q15Sat_of_mem h h']

/-- Settles O13: the law of the least alpha, then the listed triples. -/
theorem elementCornerCases : Obligations.ElementCornerCases :=
  ⟨fun a b => ⟨asr_fifteen_min_mul b, axpyElem_min_alpha a b⟩, by decide⟩

/-! ### The AXPY1 command -/

/-- AXPY1 on an idle block: RESULT and STATUS change, nothing else (R145, R114). -/
theorem exec_axpy1_idle {s : State} (hb : s.status.busy = false) : exec .axpy1 s = .next { s with
    result := (BitVec.ofInt 16 (axpyElem s.regs.opa.toInt s.regs.opb.toInt s.regs.alpha.toInt)).signExtend 32
    status := s.status.completed } := by
  rw [exec, execAxpy1, present_idle hb]; rfl

/-- A zero alpha's Q15 result is the pattern of `a` (R145, R156). -/
theorem ofInt_axpyElem_zero_alpha (a b : Half) {alpha : Half} (h : alpha = 0) :
    BitVec.ofInt 16 (axpyElem a.toInt b.toInt alpha.toInt) = a := by
  obtain ⟨ha, ha'⟩ := half_toInt_bounds a
  have hz : alpha.toInt = 0 := by rw [h]; rfl
  rw [hz, axpyElem_zero_alpha _ ha ha', BitVec.ofInt_toInt]

/-- Settles O16: the encoding, the illegal neighbours, AXPY1 while idle and while BUSY, ALPHA = 0, and R145's examples. -/
theorem axpy1Command : Obligations.Axpy1Command := by
  refine ⟨rfl, otherWordsIllegal 0x2, fun s hb => exec_axpy1_idle hb, fun s hb => exec_busy .axpy1 hb,
    fun s hb h0 => ⟨_, exec_axpy1_idle hb, congrArg (BitVec.signExtend 32) (ofInt_axpyElem_zero_alpha _ _ h0)⟩,
    fun s hb c hc hopa hopb halpha => ⟨_, exec_axpy1_idle hb, ?_⟩⟩
  change (BitVec.ofInt 16 (axpyElem s.regs.opa.toInt s.regs.opb.toInt s.regs.alpha.toInt)).signExtend 32 = _
  rw [hopa, hopb, halpha]
  fin_cases hc <;> rfl

end Sys2Proof.Machine
end

section
/-! PROOFS. Rejection at acceptance (60_exceptions.md): what a rejected command leaves behind, and which cause it reports. -/

namespace Sys2Proof.Machine

/-! ### Rejection is precise -/

/-- A vector command that fails validation changes STATUS alone (R172). -/
theorem exec_vector_rejected (op : VecOp) {s : State} {c : Cause} (hb : s.status.busy = false)
    (hc : operandCause s = some c) : exec op.instr s = .next { s with status := s.status.rejected c } := by
  rcases exec_vector_idle op hb with ⟨c', hc', he⟩ | ⟨hn, -⟩ | ⟨hn, -⟩
  · obtain rfl : c = c' := Option.some.inj (hc.symm.trans hc')
    exact he
  · simp [hc] at hn
  · simp [hc] at hn

/-- Settles O19: the two rejections, with the cause's code written out. -/
theorem rejectionIsPrecise : Obligations.RejectionIsPrecise :=
  ⟨fun _ op c hb hc => by rw [exec_vector_rejected op hb hc]; cases c <;> rfl, fun _ _ _ _ => step_illegal⟩

/-! ### The order of the causes -/

/-- STATUS reports the cause `c`, or that there was none (R24). -/
def Status.Reports (st : Status) (c : Option Cause) : Prop := st.err = c.isSome ∧ st.ecause = c.elim 0 causeCode

theorem Status.reports_rejected (st : Status) (c : Cause) : (st.rejected c).Reports (some c) := ⟨rfl, rfl⟩
theorem Status.reports_completed (st : Status) : st.completed.Reports none := ⟨rfl, rfl⟩
theorem Status.reports_started (st : Status) : st.started.Reports none := ⟨rfl, rfl⟩

/-- The checks of R112 in R173's order, each written out on the operands. -/
theorem validate_eq (p : Params) (n ab bb yb : Nat) : validate p n ab bb yb =
    if ab % 2 = 1 ∨ bb % 2 = 1 ∨ yb % 2 = 1 then some .misaligned
    else if ab + 2 * n > p.dmemSize ∨ bb + 2 * n > p.dmemSize ∨ yb + 2 * n > p.dmemSize then some .range
    else if (yb ≠ ab ∧ yb < ab + 2 * n ∧ ab < yb + 2 * n) ∨ (yb ≠ bb ∧ yb < bb + 2 * n ∧ bb < yb + 2 * n) then
      some .overlap
    else none := by
  simp only [validate, partialOverlap_iff, Nat.mod_two_ne_zero]

/-- Words 0 to 2 are NOP, SAT and AXPY1 (R93). -/
theorem decode_immediate {w : Word} (h : w.toNat ≤ 2) :
    ∃ i, decode w = .ok i ∧ (i = .nop ∨ i = .sat ∨ i = .axpy1) := by
  rw [decode_eq]
  obtain h0 | h1 | h2 : w.toNat = 0 ∨ w.toNat = 1 ∨ w.toNat = 2 := by omega
  · exact ⟨.nop, by simp [h0]⟩
  · exact ⟨.sat, by simp [h1]⟩
  · exact ⟨.axpy1, by simp [h2]⟩

/-- Words 3 and 4 are the vector commands (R93). -/
theorem decode_vector {w : Word} (h : w.toNat = 3 ∨ w.toNat = 4) : ∃ op : VecOp, decode w = .ok op.instr := by
  rw [decode_eq]
  rcases h with h3 | h4
  · exact ⟨.axpyB, by simp [h3, VecOp.instr]⟩
  · exact ⟨.axpyV, by simp [h4, VecOp.instr]⟩

theorem exec_immediate_reports {i : Instr} {s : State} (hb : s.status.busy = false)
    (hi : i = .nop ∨ i = .sat ∨ i = .axpy1) : ∃ t, exec i s = .next t ∧ t.status.Reports none := by
  obtain ⟨r, he⟩ := exec_immediate_idle hb hi
  exact ⟨_, he, s.status.reports_completed⟩

/-- A vector command on an idle block reports what its validation finds (R112). -/
theorem exec_vector_reports (op : VecOp) {s : State} (hb : s.status.busy = false) :
    ∃ t, exec op.instr s = .next t ∧ t.status.Reports (operandCause s) := by
  rcases exec_vector_idle op hb with ⟨c, hc, he⟩ | ⟨hc, -, he⟩ | ⟨hc, -, he⟩ <;> rw [hc]
  · exact ⟨_, he, s.status.reports_rejected c⟩
  · exact ⟨_, he, s.status.reports_completed⟩
  · exact ⟨_, he, s.status.reports_started⟩

/-- The cause with which an idle block meets command word `w`: legality comes first, and only a vector command has operands
to validate (R173). -/
def wordCause (w : Word) (s : State) : Option Cause :=
  if 4 < w.toNat then some .illegal else if w.toNat ≤ 2 then none else operandCause s

/-- Whatever the word, an idle block answers it, and STATUS reports the word's cause. -/
theorem step_cmd_reports {s : State} {w : Word} {rest : List Slot} (h : s.inputs = cmdSlot w :: rest)
    (hr : s.rstHeld = false) (hb : s.status.busy = false) :
    ∃ t, step s = .next t ∧ t.status.Reports (wordCause w s) := by
  unfold wordCause
  split_ifs with hillegal himmediate
  · exact ⟨_, step_illegal h hr hb (decode_error_of_four_lt hillegal), s.status.reports_rejected .illegal⟩
  · obtain ⟨i, hd, hi⟩ := decode_immediate himmediate
    rw [step_cmd h hr, cmdWrite_legal hd]
    exact exec_immediate_reports hb hi
  · obtain ⟨op, hd⟩ := decode_vector (w := w) (by omega)
    rw [step_cmd h hr, cmdWrite_legal hd]
    exact exec_vector_reports op (s := { s with inputs := rest }) hb

/-- Settles O20: the step reports the word's cause, and each clause names the branch of the ordered checks it falls in. -/
theorem rejectionPriority : Obligations.RejectionPriority := by
  intro s w rest h hr hb n ab bb yb odd far mixed
  obtain ⟨t, ht, hrep⟩ := step_cmd_reports h hr hb
  refine ⟨t, ht, fun hw => ?_, fun hw => ?_, fun hw => ?_⟩
  · rwa [wordCause, if_pos hw] at hrep
  · rwa [wordCause, if_neg (by omega), if_pos hw] at hrep
  · have hcause : wordCause w s =
        if odd then some .misaligned else if far then some .range else if mixed then some .overlap else none := by
      rw [wordCause, if_neg (by omega), if_neg (by omega)]
      exact validate_eq s.params n ab bb yb
    rw [hcause] at hrep
    refine ⟨fun ho => ?_, fun ho hf => ?_, fun ho hf hm => ?_, fun ho hf hm => ?_⟩
    · rwa [if_pos ho] at hrep
    · rwa [if_neg ho, if_pos hf] at hrep
    · rwa [if_neg ho, if_neg hf, if_pos hm] at hrep
    · rwa [if_neg ho, if_neg hf, if_neg hm] at hrep

end Sys2Proof.Machine
end

section
/-! PROOFS. Reset (70_reset_and_hazards.md R200): what the reset step leaves, and what the held `rst` shuts out. -/

namespace Sys2Proof.Machine

/-! ### The reset step -/

/-- Abandoning a run touches DMEM and the draws only; the schedule stays (R201). -/
@[simp] theorem abandonRun_inputs (s : State) : (abandonRun s).inputs = s.inputs := by
  rw [abandonRun]; split_ifs <;> rfl

@[simp] theorem applyReset_rstHeld (s : State) : (applyReset s).rstHeld = true := rfl
@[simp] theorem applyReset_status (s : State) : (applyReset s).status = Status.reset := rfl
@[simp] theorem applyReset_ie (s : State) : (applyReset s).ie = IntEnable.reset := rfl
@[simp] theorem applyReset_regs (s : State) : (applyReset s).regs = OperandRegs.reset := rfl
@[simp] theorem applyReset_result (s : State) : (applyReset s).result = 0 := rfl
@[simp] theorem applyReset_inputs (s : State) : (applyReset s).inputs = s.inputs := abandonRun_inputs s

/-- Cleared flags ask for no interrupt, whatever is enabled (R36). -/
theorem irq_of_status_reset {s : State} (h : s.status = Status.reset) : irq s = false := by
  simp [irq, h, Status.reset]

theorem step_rstAssert {s : State} {rest : List Slot} (h : s.inputs = .host .rstAssert :: rest) :
    step s = .next (applyReset { s with inputs := rest }) := step_of_host h

/-! ### While `rst` is held -/

theorem step_regRead_held {s : State} {rest : List Slot} {off width : Nat} (hr : s.rstHeld = true)
    (h : s.inputs = .host (.regRead off width) :: rest) : step s = .refused .hostAccessDuringReset :=
  (step_of_host h).trans (hostTurn_held hr)

theorem step_regWrite_held {s : State} {rest : List Slot} {off width : Nat} {v : Word} (hr : s.rstHeld = true)
    (h : s.inputs = .host (.regWrite off width v) :: rest) : step s = .refused .hostAccessDuringReset :=
  (step_of_host h).trans (hostTurn_held hr)

/-- Settles O55: the reset step's values, the two refused transactions, the waiting sequencer, and the power-on values. -/
theorem resetClearsBlock : Obligations.ResetClearsBlock := by
  refine ⟨fun s rest h => ?_, fun s rest off width v hr => ?_, fun s hr => sequencerTurn_held hr, fun p => ?_⟩
  · exact ⟨_, step_rstAssert h, applyReset_rstHeld _, irq_of_status_reset (applyReset_status _), applyReset_status _,
      applyReset_ie _, applyReset_regs _, applyReset_result _, applyReset_inputs _⟩
  · exact ⟨step_regRead_held hr, step_regWrite_held hr⟩
  · exact ⟨irq_resetWith p, rfl, rfl, rfl, rfl⟩

end Sys2Proof.Machine
end

section
/-! PROOFS. Decoding and encoding agree (30_encoding.md section 3), and a presented command word runs its command. -/

namespace Sys2Proof.Machine

/-! ### Words and opcodes by their values -/

theorem toNat_encode (i : Instr) : (encode i).toNat = (opcodeOf i).toNat := by cases i <;> rfl

/-- A legal word is one of the values 0 to 4 (R93). -/
theorem c32Of_wf_iff (w : Word) : (c32Of w).wf = true ↔ w.toNat ≤ 4 := by
  have hw := w.isLt
  have hrsvd : (c32Of w).rsvd = 0#28 ↔ w.toNat < 16 := by
    rw [← BitVec.toNat_inj, c32Of, BitVec.extractLsb'_toNat, BitVec.toNat_ofNat]
    omega
  have hop : (c32Of w).op.toNat = w.toNat % 16 := by rw [c32Of, BitVec.extractLsb'_toNat]; rfl
  simp only [C32.wf, Bool.and_eq_true, beq_iff_eq, decide_eq_true_eq, hrsvd, hop]
  omega

/-- The opcodes are the values 0 to 4 (R93). -/
theorem exists_opcodeOf_iff (n : Nat) : (∃ i, n = (opcodeOf i).toNat) ↔ n ≤ 4 := by
  refine ⟨?_, fun h => ?_⟩
  · rintro ⟨i, rfl⟩
    cases i <;> decide
  · obtain rfl | rfl | rfl | rfl | rfl : n = 0 ∨ n = 1 ∨ n = 2 ∨ n = 3 ∨ n = 4 := by omega
    · exact ⟨.nop, rfl⟩
    · exact ⟨.sat, rfl⟩
    · exact ⟨.axpy1, rfl⟩
    · exact ⟨.axpyB, rfl⟩
    · exact ⟨.axpyV, rfl⟩

/-! ### The decoder inverts the encoder -/

theorem decode_encode (i : Instr) : decode (encode i) = .ok i := by cases i <;> rfl

/-- Each legal word has one spelling: a word that is not above 4 is some command's encoding, and decodes to that command
only; every other word is an error. -/
theorem decode_ok_iff (w : Word) (i : Instr) : decode w = .ok i ↔ w = encode i := by
  refine ⟨fun h => ?_, fun h => h ▸ decode_encode i⟩
  rcases Nat.lt_or_ge 4 w.toNat with hgt | hle
  · rw [decode_error_of_four_lt hgt] at h
    cases h
  · obtain ⟨j, hj⟩ := (exists_opcodeOf_iff _).2 hle
    obtain rfl : w = encode j := BitVec.eq_of_toNat_eq (hj.trans (toNat_encode j).symm)
    rw [decode_encode] at h
    exact congrArg encode (Except.ok.inj h)

/-- A full-width table row is the word itself. -/
theorem tableWord_toNat (w : Word) : tableWord 32 w.toNat = w := by
  rw [tableWord, Nat.mod_eq_of_lt w.isLt, BitVec.ofNat_toNat, BitVec.setWidth_eq]

theorem decodeTableWord_eq_some_iff (nbits w : Nat) (i : Instr) :
    decodeTableWord nbits w = some i ↔ decode (tableWord nbits w) = .ok i := by
  unfold decodeTableWord
  cases decode (tableWord nbits w) <;> simp

/-- Settles O2: the decoder, the decoder of table rows, and legality. -/
theorem decodeOkIffEncoded : Obligations.DecodeOkIffEncoded := by
  refine ⟨decode_ok_iff, fun w i => ?_, fun w => ?_⟩
  · rw [decodeTableWord_eq_some_iff, tableWord_toNat, decode_ok_iff]
  · rw [c32Of_wf_iff, ← exists_opcodeOf_iff]
    simp only [decode_ok_iff, ← BitVec.toNat_inj, toNat_encode]

/-- Settles O3: nine closed words. -/
theorem opcodeWordsDecode : Obligations.OpcodeWordsDecode := by
  unfold Obligations.OpcodeWordsDecode
  decide

/-! ### A presented command word runs its command -/

theorem step_cmd_legal {s : State} {w : Word} {rest : List Slot} {i : Instr} (h : s.inputs = cmdSlot w :: rest)
    (hr : s.rstHeld = false) (hd : decode w = .ok i) : step s = exec i { s with inputs := rest } := by
  rw [step_cmd h hr, cmdWrite_legal hd]

/-- Settles O4: `withFetchWord` schedules the command's encoding, which decodes to the command. -/
theorem stepRunsPresentedCommand : Obligations.StepRunsPresentedCommand := by
  refine ⟨fun _ _ _ _ => step_cmd_legal, fun s i => ?_⟩
  rw [State.withFetchWord, tableWord_toNat]
  exact step_cmd_legal (s := scheduleCommand (encode i) s) rfl rfl (decode_encode i)

end Sys2Proof.Machine
end

section
/-! PROOFS. The operands of the vector commands: a zero alpha, and what validation says of the three ranges
(42_axpy_kernel.md section 3). -/

namespace Sys2Proof.Machine

/-- A zero alpha computes the pattern of `a`'s element (R156). -/
theorem elemResult_zero_alpha (m : Memory) (l : Latch) (i : Nat) (h : l.alpha = 0) :
    elemResult m l i = elem16 m l.abase i :=
  ofInt_axpyElem_zero_alpha (elem16 m l.abase i) (elem16 m l.bbase i) h

/-- Settles O12: the integers, then the patterns. -/
theorem zeroAlphaCopies : Obligations.ZeroAlphaCopies :=
  ⟨fun _ b => axpyElem_zero_alpha b, elemResult_zero_alpha⟩

/-- Settles O21: when the ranges meet, the later base is a byte of both. -/
theorem partialOverlapIsSharedByte : Obligations.PartialOverlapIsSharedByte := by
  intro p q n
  rw [partialOverlap_iff]
  refine and_congr_right fun _ => ⟨fun h => ⟨max p q, ?_⟩, ?_⟩
  · omega
  · rintro ⟨x, hp, hq⟩
    omega

/-- Two equal or disjoint ranges at even bases share a byte only between elements of one index (R147). -/
theorem index_eq_of_shared_byte {base base' : Word} {n i j x : Nat} (heven : base.toNat % 2 = base'.toNat % 2)
    (hsep : ¬(base.toNat ≠ base'.toNat ∧ base.toNat < base'.toNat + 2 * n ∧ base'.toNat < base.toNat + 2 * n))
    (hi : i < n) (hj : j < n) (hx : x = elemAddr base j ∨ x = elemAddr base j + 1)
    (hx' : x = elemAddr base' i ∨ x = elemAddr base' i + 1) : i = j := by
  simp only [elemAddr] at hx hx'
  omega

/-- Settles O22: validation makes the output range equal to or disjoint from each input range. -/
theorem outputMeetsInputsAtOwnIndex : Obligations.OutputMeetsInputsAtOwnIndex := by
  intro p l i j x hv hi hj hy hin
  obtain ⟨⟨ha, hb, hyb⟩, -, hsepA, hsepB⟩ := (validate_none_iff _ _ _ _ _).1 hv
  rcases hin with hxa | hxb
  · exact index_eq_of_shared_byte (hyb.trans ha.symm) hsepA hi hj hy hxa
  · exact index_eq_of_shared_byte (hyb.trans hb.symm) hsepB hi hj hy hxb

end Sys2Proof.Machine
end

section
/-! PROOFS. The register map (10_state.md): what each register reads and stores, and which accesses are refused. -/

namespace Sys2Proof.Machine

/-! ### Reads -/

theorem exists_regAt {off : Nat} (h4 : off % 4 = 0) (h : off ≤ 0xFC) : ∃ r, regAt off 32 = some r := by
  rw [← Option.ne_none_iff_exists', ne_eq, regAt_eq_none_iff]
  omega

/-- A bit appended below is the lowest binary digit. -/
theorem toNat_append_ofBool {n : Nat} (x : BitVec n) (b : Bool) :
    (x ++ BitVec.ofBool b).toNat = 2 * x.toNat + b.toNat := by
  have hb : (BitVec.ofBool b).toNat < 2 ^ 1 := (BitVec.ofBool b).isLt
  rw [BitVec.toNat_append, ← Nat.shiftLeft_add_eq_or_of_lt hb, Nat.shiftLeft_eq, BitVec.toNat_ofBool, mul_comm]

/-- R24's fields as the digits of the word's value. -/
theorem toNat_statusWord (st : Status) : (statusWord st).toNat = st.busy.toNat + 2 * st.done.toNat
    + 4 * st.err.toNat + 8 * st.drop.toNat + 16 * st.ecause.toNat := by
  have hc := st.ecause.isLt
  have hfit : statusWord st = BitVec.setWidth 32 _ := rfl
  rw [hfit, BitVec.toNat_setWidth_of_le (by decide)]
  simp only [toNat_append_ofBool]
  omega

/-- R26's fields as the digits of the word's value. -/
theorem toNat_ieWord (ie : IntEnable) : (ieWord ie).toNat = ie.doneIe.toNat + 2 * ie.errIe.toNat := by
  obtain ⟨d, e⟩ := ie
  cases d <;> cases e <;> rfl

/-- A 16-bit register reads as its own value (R27, R30). -/
theorem toNat_setWidth_half (v : Half) : (v.setWidth 32).toNat = v.toNat :=
  BitVec.toNat_setWidth_of_le (by decide)

/-- Settles O39: the offset names a register, and its value is read. -/
theorem registerReads : Obligations.RegisterReads := by
  intro s rest off hr h h4 hle
  obtain ⟨r, hreg⟩ := exists_regAt h4 hle
  have hat : ∀ r' : Reg, regAt off 32 = some r' → r = r' := fun r' h' => Option.some.inj (hreg.symm.trans h')
  refine ⟨readReg s r, step_regRead h hr hreg, ?_, ?_, ?_, ?_, ?_, ?_, ?_, ?_, ?_, ?_, ?_, ?_, ?_⟩
  · rintro rfl; rw [hat .cmd rfl]; rfl
  · rintro rfl; rw [hat .status rfl]; exact toNat_statusWord s.status
  · rintro rfl; rw [hat .ie rfl]; exact toNat_ieWord s.ie
  · rintro rfl; rw [hat .alpha rfl]; exact toNat_setWidth_half s.regs.alpha
  · rintro rfl; rw [hat .len rfl]; rfl
  · rintro rfl; rw [hat .abase rfl]; rfl
  · rintro rfl; rw [hat .bbase rfl]; rfl
  · rintro rfl; rw [hat .ybase rfl]; rfl
  · rintro rfl; rw [hat .opa rfl]; exact toNat_setWidth_half s.regs.opa
  · rintro rfl; rw [hat .opb rfl]; exact toNat_setWidth_half s.regs.opb
  · rintro rfl; rw [hat .wide rfl]; rfl
  · rintro rfl; rw [hat .result rfl]; rfl
  · intro h0; rw [hat .reserved (regAt_reserved h4 h0 hle)]; rfl

/-! ### Writes -/

section
variable (v : Word) (s : State) (r : Reg)

theorem writeReg_busy : (writeReg v s r).status.busy = s.status.busy := by cases r <;> rfl
theorem writeReg_result : (writeReg v s r).result = s.result := by cases r <;> rfl
theorem writeReg_latch : (writeReg v s r).latch = s.latch := by cases r <;> rfl
theorem writeReg_idx : (writeReg v s r).idx = s.idx := by cases r <;> rfl
theorem writeReg_mem : (writeReg v s r).mem = s.mem := by cases r <;> rfl
theorem writeReg_rstHeld : (writeReg v s r).rstHeld = s.rstHeld := by cases r <;> rfl
theorem writeReg_d0 : (writeReg v s r).d0 = s.d0 := by cases r <;> rfl
theorem writeReg_tainted : (writeReg v s r).tainted = s.tainted := by cases r <;> rfl
theorem writeReg_inputs : (writeReg v s r).inputs = s.inputs := by cases r <;> rfl

end

/-- Settles O40: each offset names its register, whose write stores its field. -/
theorem registerWrites : Obligations.RegisterWrites := by
  intro s rest off v hr h t
  have store : ∀ r : Reg, r ≠ .cmd → regAt off 32 = some r → step s = .next (writeReg v t r) :=
    fun r hc hreg => step_regWrite h hr hreg hc
  rw [← setWidth_half]
  refine ⟨?_, ?_, ?_, ?_, ?_, ?_, ?_, ?_, ?_, ?_, ?_⟩
  · rintro rfl; exact store .ie nofun rfl
  · rintro rfl; exact store .alpha nofun rfl
  · rintro rfl; exact store .len nofun rfl
  · rintro rfl; exact store .abase nofun rfl
  · rintro rfl; exact store .bbase nofun rfl
  · rintro rfl; exact store .ybase nofun rfl
  · rintro rfl; exact store .opa nofun rfl
  · rintro rfl; exact store .opb nofun rfl
  · rintro rfl; exact store .wide nofun rfl
  · rintro rfl; exact store .result nofun rfl
  · exact fun h4 h0 hle => store .reserved nofun (regAt_reserved h4 h0 hle)

/-! ### Reading back -/

/-- The bits that a read-write register has (R26 to R31). -/
def writeMask : Reg → Word
  | .ie => 0x00000003
  | .alpha | .opa | .opb => 0x0000FFFF
  | .len | .abase | .bbase | .ybase | .wide => 0xFFFFFFFF
  | .cmd | .status | .result | .reserved => 0

/-- A mask of the `k` lowest bits takes the value modulo `2 ^ k`. -/
theorem toNat_and_lowMask (v : Word) {m : Word} {k : Nat} (hm : m.toNat = 2 ^ k - 1) :
    (v &&& m).toNat = v.toNat % 2 ^ k := by
  rw [BitVec.toNat_and, hm, Nat.and_two_pow_sub_one_eq_mod]

theorem setWidth_half_setWidth (v : Word) : (v.setWidth 16).setWidth 32 = v &&& 0x0000FFFF := by
  apply BitVec.eq_of_toNat_eq
  rw [toNat_setWidth_half, BitVec.toNat_setWidth, toNat_and_lowMask v (k := 16) rfl]

theorem toNat_getLsbD (v : Word) (k : Nat) : (v.getLsbD k).toNat = v.toNat / 2 ^ k % 2 := by
  rw [BitVec.getLsbD, Nat.toNat_testBit]

theorem ieWord_ieOfWord (v : Word) : ieWord (ieOfWord v) = v &&& 0x00000003 := by
  apply BitVec.eq_of_toNat_eq
  rw [toNat_ieWord, toNat_and_lowMask v (k := 2) rfl, ieOfWord, toNat_getLsbD, toNat_getLsbD]
  omega

theorem and_allOnes_word (v : Word) : v = v &&& 0xFFFFFFFF := (BitVec.and_allOnes (x := v)).symm

/-- A read-write register reads back as the written word under its mask (R26 to R31). -/
theorem readReg_writeReg_same (v : Word) (s : State) {r : Reg} (hr : writeMask r ≠ 0) :
    readReg (writeReg v s r) r = v &&& writeMask r := by
  cases r with
  | cmd | status | result | reserved => exact absurd rfl hr
  | ie => exact ieWord_ieOfWord v
  | alpha | opa | opb => exact setWidth_half_setWidth v
  | len | abase | bbase | ybase | wide => exact and_allOnes_word v

theorem run_one {s t : State} (h : step s = .next t) : Host.Core.run core 1 s = .next t := run_step (k := 0) h

/-- Two transactions in a row: the second sees the first's effect (20_memory.md section 5). -/
theorem run_write_read {s : State} {rest : List Slot} {off : Nat} {v : Word} {r : Reg} (hr : s.rstHeld = false)
    (hreg : regAt off 32 = some r) (hrw : writeMask r ≠ 0)
    (h : s.inputs = .host (.regWrite off 32 v) :: .host (.regRead off 32) :: rest) :
    ∃ t, Host.Core.run core 2 s = .next t ∧ t.readData = v &&& writeMask r := by
  have hcmd : r ≠ .cmd := fun hc => hrw (by rw [hc]; rfl)
  let t := writeReg v { s with inputs := .host (.regRead off 32) :: rest } r
  have hread := step_regRead (s := t) (writeReg_inputs _ _ _) ((writeReg_rstHeld _ _ _).trans hr) hreg
  exact ⟨_, (run_step (step_regWrite h hr hreg hcmd)).trans (run_one hread), readReg_writeReg_same _ _ hrw⟩

/-- Settles O41: each of the nine offsets names a read-write register with the listed mask. -/
theorem writeThenReadBack : Obligations.WriteThenReadBack := by
  intro s rest v hr c hc
  fin_cases hc
  · exact run_write_read (r := .ie) hr rfl (by decide)
  · exact run_write_read (r := .alpha) hr rfl (by decide)
  · exact run_write_read (r := .len) hr rfl (by decide)
  · exact run_write_read (r := .abase) hr rfl (by decide)
  · exact run_write_read (r := .bbase) hr rfl (by decide)
  · exact run_write_read (r := .ybase) hr rfl (by decide)
  · exact run_write_read (r := .opa) hr rfl (by decide)
  · exact run_write_read (r := .opb) hr rfl (by decide)
  · exact run_write_read (r := .wide) hr rfl (by decide)

/-! ### Refused accesses -/

theorem hostRegRead_none {s : State} {off width : Nat} (hr : s.rstHeld = false) (hreg : regAt off width = none) :
    hostRegRead off width s = .refused .outsideRegisterInterface := by
  simp only [hostRegRead, hr, hreg, Bool.false_eq_true, if_false]

theorem hostRegWrite_none {s : State} {off width : Nat} (v : Word) (hr : s.rstHeld = false)
    (hreg : regAt off width = none) : hostRegWrite off width v s = .refused .outsideRegisterInterface := by
  simp only [hostRegWrite, hr, hreg, Bool.false_eq_true, if_false]

/-- Every command word has an answer, whatever the block is doing (30_encoding.md R94, 40_command_flow.md R111). -/
theorem exists_cmdWrite (w : Word) (s : State) : ∃ t, cmdWrite w s = .next t := by
  cases hb : s.status.busy with
  | true => exact ⟨_, cmdWrite_busy w hb⟩
  | false =>
    rcases hd : decode w with e | i
    · exact ⟨_, cmdWrite_illegal hb hd⟩
    · rw [cmdWrite_legal hd]
      rcases exec_spec i s with ⟨-, h⟩ | ⟨-, -, h⟩ | ⟨-, -, r, h⟩ | ⟨op, -, -, ⟨c, -, h⟩ | ⟨-, -, h⟩ | ⟨-, -, h⟩⟩
      all_goals exact ⟨_, h⟩

theorem exists_step_regWrite {s : State} {rest : List Slot} {off width : Nat} {v : Word} {r : Reg}
    (h : s.inputs = .host (.regWrite off width v) :: rest) (hr : s.rstHeld = false)
    (hreg : regAt off width = some r) : ∃ t, step s = .next t := by
  by_cases hc : r = .cmd
  · subst hc
    obtain ⟨rfl, rfl⟩ := (regAt_cmd_iff _ _).1 hreg
    rw [step_cmd h hr]
    exact exists_cmdWrite v _
  · exact ⟨_, step_regWrite h hr hreg hc⟩

/-- The interface has exactly the accesses that name a register (R20, R21). -/
theorem regAccess_wf_iff (off width : Nat) :
    (off % 4 == 0 && decide (off ≤ 0xFC) && width == 32) = true ↔ regAt off width ≠ none := by
  simp only [ne_eq, regAt_eq_none_iff, Bool.and_eq_true, beq_iff_eq, decide_eq_true_eq]
  omega

/-- Settles O44: an access is legal exactly when its offset and width name a register. -/
theorem outsideInterfaceRefused : Obligations.OutsideInterfaceRefused := by
  intro s rest a hr h hreg
  rcases hreg with ⟨off, width, rfl⟩ | ⟨off, width, v, rfl⟩
  · refine ⟨fun hw => ?_, fun hw => ?_⟩
    · rw [step_of_host h]
      exact hostRegRead_none hr (not_not.1 (mt (regAccess_wf_iff off width).2 (ne_true_of_eq_false hw)))
    · obtain ⟨r, hr'⟩ := Option.ne_none_iff_exists'.1 ((regAccess_wf_iff off width).1 hw)
      exact ⟨_, step_regRead h hr hr'⟩
  · refine ⟨fun hw => ?_, fun hw => ?_⟩
    · rw [step_of_host h]
      exact hostRegWrite_none v hr (not_not.1 (mt (regAccess_wf_iff off width).2 (ne_true_of_eq_false hw)))
    · obtain ⟨r, hr'⟩ := Option.ne_none_iff_exists'.1 ((regAccess_wf_iff off width).1 hw)
      exact exists_step_regWrite h hr hr'

/-! ### DMEM accesses that leave DMEM -/

theorem hostDmemRead_absent {s : State} {addr count : Nat} (hr : s.rstHeld = false)
    (h : ¬addr + count ≤ s.params.dmemSize) : hostDmemRead addr count s = .fault .dmemAddressAbsent := by
  rw [hostDmemRead, hr]
  exact if_neg h

theorem hostDmemWrite_absent {s : State} {addr : Nat} {bytes : List Byte} (hr : s.rstHeld = false)
    (h : ¬addr + bytes.length ≤ s.params.dmemSize) : hostDmemWrite addr bytes s = .fault .dmemAddressAbsent := by
  rw [hostDmemWrite, hr]
  exact if_neg h

/-- Settles O51: a DMEM access is legal exactly when it stays inside DMEM. -/
theorem absentAddressFaults : Obligations.AbsentAddressFaults := by
  intro s rest a hr h hacc
  rw [step_of_host h]
  rcases hacc with ⟨addr, count, rfl⟩ | ⟨addr, bytes, rfl⟩
  · exact ⟨fun hw => hostDmemRead_absent hr (of_decide_eq_false hw),
      fun hw => ⟨_, hostDmemRead_of_le hr (of_decide_eq_true hw)⟩⟩
  · exact ⟨fun hw => hostDmemWrite_absent hr (of_decide_eq_false hw),
      fun hw => ⟨_, hostDmemWrite_of_le hr (of_decide_eq_true hw)⟩⟩

end Sys2Proof.Machine
end

section
/-! PROOFS. The frame of acceptance, and every action of the host as one case of a case analysis. -/

namespace Sys2Proof.Machine

/-! ### The frame of acceptance -/

theorem VecOp.instr_vector (op : VecOp) : op.instr = .axpyB ∨ op.instr = .axpyV := by cases op <;> decide

/-- The fields that no command word writes (10_state.md R34, 20_memory.md R60). -/
structure KeptByExec (s t : State) : Prop where
  ie : t.ie = s.ie
  regs : t.regs = s.regs
  mem : t.mem = s.mem
  params : t.params = s.params
  rstHeld : t.rstHeld = s.rstHeld
  draws : t.draws = s.draws
  inputs : t.inputs = s.inputs
  readData : t.readData = s.readData
  dmemData : t.dmemData = s.dmemData

theorem exec_kept {i : Instr} {s t : State} (h : exec i s = .next t) : KeptByExec s t := by
  rcases exec_spec i s with ⟨-, he⟩ | ⟨-, -, he⟩ | ⟨-, -, r, he⟩ | ⟨op, -, -, ⟨c, -, he⟩ | ⟨-, -, he⟩ | ⟨-, -, he⟩⟩
  all_goals
    obtain rfl := Host.Outcome.next.inj (he.symm.trans h)
    exact ⟨rfl, rfl, rfl, rfl, rfl, rfl, rfl, rfl, rfl⟩

/-- Only SAT and AXPY1 write RESULT (10_state.md R32). -/
theorem exec_result {i : Instr} {s t : State} (h : exec i s = .next t) (hsat : i ≠ .sat) (haxpy1 : i ≠ .axpy1) :
    t.result = s.result := by
  rcases exec_spec i s with ⟨-, he⟩ | ⟨-, -, he⟩ | ⟨-, hi, -⟩ | ⟨op, -, -, ⟨c, -, he⟩ | ⟨-, -, he⟩ | ⟨-, -, he⟩⟩
  case inr.inr.inl => exact absurd hi (by simp [hsat, haxpy1])
  all_goals
    obtain rfl := Host.Outcome.next.inj (he.symm.trans h)
    rfl

/-- Only AXPY.B and AXPY.V touch the sequencer (40_command_flow.md R113, R115). -/
theorem exec_sequencer {i : Instr} {s t : State} (h : exec i s = .next t) (hB : i ≠ .axpyB) (hV : i ≠ .axpyV) :
    t.latch = s.latch ∧ t.idx = s.idx ∧ t.d0 = s.d0 ∧ t.tainted = s.tainted ∧ t.status.busy = s.status.busy := by
  rcases exec_spec i s with ⟨-, he⟩ | ⟨-, -, he⟩ | ⟨-, -, r, he⟩ | ⟨op, rfl, -⟩
  case inr.inr.inr => exact absurd op.instr_vector (by simp [hB, hV])
  all_goals
    obtain rfl := Host.Outcome.next.inj (he.symm.trans h)
    exact ⟨rfl, rfl, rfl, rfl, rfl⟩

/-- Settles O24: the fields no command writes, then DROP, RESULT and the sequencer's fields by command. -/
theorem commandFrame : Obligations.CommandFrame := by
  intro i s t h
  have hk := exec_kept h
  exact ⟨hk.ie, hk.regs, fun a => by rw [hk.mem], hk.mem, hk.params, hk.rstHeld, hk.draws, hk.inputs, hk.readData,
    hk.dmemData, fun hb => (exec_acceptedAs hb (decode_encode i) h).drop_eq, exec_result h, exec_sequencer h⟩

/-! ### The effect of a host action -/

/-- DMEM after the host's write, and whether it has broken the contract (20_memory.md R74). -/
def afterDmemWrite (addr : Nat) (bytes : List Byte) (s : State) : State :=
  { s with
    mem := writeBytes s.mem addr bytes
    tainted := s.tainted
      || (s.status.busy && (List.range bytes.length).any (fun k => inRunRanges s (addr + k))) }

/-- What the host has been told after its read of DMEM (R73). -/
def afterDmemRead (addr count : Nat) (s : State) : State :=
  { s with
    dmemData := (List.range count).map (fun k => hostSeesByte s (addr + k))
    draws := if s.status.busy then s.draws + 1 else s.draws }

/-- The next states that an action of the outside world can lead to from `s`, by kind of action. -/
inductive HostEffect (s : State) : HostAction → State → Prop where
  | read {off width : Nat} (v : Word) : HostEffect s (.regRead off width) { s with readData := v }
  | dropped {w : Word} (running : s.status.busy = true) :
      HostEffect s (.regWrite 0x00 32 w) { s with status := s.status.dropped }
  | illegal {w : Word} (idle : s.status.busy = false) :
      HostEffect s (.regWrite 0x00 32 w) { s with status := s.status.rejected .illegal }
  | command {w : Word} {i : Instr} {t : State} (released : s.rstHeld = false) (idle : s.status.busy = false)
      (word : w = encode i) (run : exec i s = .next t) : HostEffect s (.regWrite 0x00 32 w) t
  | store {off : Nat} {v : Word} {r : Reg} (register : regAt off 32 = some r) (notCmd : r ≠ .cmd) :
      HostEffect s (.regWrite off 32 v) (writeReg v s r)
  | dmemRead (addr count : Nat) : HostEffect s (.dmemRead addr count) (afterDmemRead addr count s)
  | dmemWrite {addr : Nat} {bytes : List Byte} (inside : addr + bytes.length ≤ s.params.dmemSize) :
      HostEffect s (.dmemWrite addr bytes) (afterDmemWrite addr bytes s)
  | rstAssert : HostEffect s .rstAssert (applyReset s)
  | rstRelease : HostEffect s .rstRelease { s with rstHeld := false }

theorem hostTurn_effect {a : HostAction} {s t : State} (h : hostTurn a s = .next t) : HostEffect s a t := by
  rcases hostTurn_spec h with ⟨off, width, r, rfl, -, -, rfl⟩ | ⟨w, rfl, hr, hc⟩ | ⟨off, v, r, rfl, -, hc, hreg, rfl⟩ |
    ⟨addr, count, rfl, -, -, rfl⟩ | ⟨addr, bytes, rfl, -, hle, rfl⟩ | ⟨rfl, rfl⟩ | ⟨rfl, rfl⟩
  · exact .read _
  · rcases cmdWrite_spec hc with ⟨hb, rfl⟩ | ⟨hb, e, -, rfl⟩ | ⟨hb, i, hd, he⟩
    · exact .dropped hb
    · exact .illegal hb
    · exact .command hr hb ((decode_ok_iff w i).1 hd) he
  · exact .store hreg hc
  · exact .dmemRead addr count
  · exact .dmemWrite hle
  · exact .rstAssert
  · exact .rstRelease

/-- Every step is the sequencer's turn or has the effect of the host's next action. -/
theorem step_effect {s t : State} (h : step s = .next t) :
    (sequencerNext s = true ∧ sequencerTurn { s with inputs := s.inputs.tail } = .next t) ∨
    (∃ a rest, s.inputs = .host a :: rest ∧ HostEffect { s with inputs := rest } a t) := by
  rcases step_cases s with ⟨hn, he⟩ | ⟨a, rest, hin, he⟩
  · exact .inl ⟨hn, he ▸ h⟩
  · exact .inr ⟨a, rest, hin, hostTurn_effect (he ▸ h)⟩

/-- The fields that no turn of the sequencer writes (10_state.md R34, R35). -/
structure KeptBySequencer (s t : State) : Prop where
  ie : t.ie = s.ie
  regs : t.regs = s.regs
  result : t.result = s.result
  latch : t.latch = s.latch
  rstHeld : t.rstHeld = s.rstHeld
  params : t.params = s.params
  d0 : t.d0 = s.d0
  tainted : t.tainted = s.tainted
  inputs : t.inputs = s.inputs

theorem sequencerTurn_kept {s t : State} (h : sequencerTurn s = .next t) : KeptBySequencer s t := by
  rcases sequencerTurn_spec h with rfl | ⟨-, ht⟩
  · exact ⟨rfl, rfl, rfl, rfl, rfl, rfl, rfl, rfl, rfl⟩
  · rw [ht]
    exact ⟨rfl, rfl, rfl, rfl, rfl, rfl, rfl, rfl, rfl⟩

end Sys2Proof.Machine
end

section
/-! PROOFS. The sequencer's steps (42_axpy_kernel.md R150, R152): their effect while the host keeps out of the ranges, and
what no step writes. -/

namespace Sys2Proof.Machine

/-! ### The step of a running command -/

/-- The invariant does not read the operand registers, IE, or the model's own bookkeeping. -/
theorem GoodState.unread {s : State} (h : GoodState s) {ie : IntEnable} {regs : OperandRegs} {d0 : Memory}
    {tainted : Bool} {draws : Nat} {inputs : List Slot} {readData : Word} {dmemData : List Byte} :
    GoodState { s with ie := ie, regs := regs, d0 := d0, tainted := tainted, draws := draws, inputs := inputs
                       readData := readData, dmemData := dmemData } :=
  ⟨h.params, h.status, h.memWf, h.memInside, h.resultQ15, h.heldIdle, h.runValid, h.runLeft⟩

/-- The sequencer's step of either strategy, while the host has kept out of the ranges. -/
theorem step_of_kept {s : State} (hi : GoodState s) (hb : s.status.busy = true) (ht : s.tainted = false)
    (hn : sequencerNext s = true) : step s = .next { s with
      inputs := s.inputs.tail, mem := laneWrites s (stepElems s), idx := s.idx + stepCount s
      status := if s.idx + stepCount s = s.latch.n.toNat then { s.status with busy := false, done := true }
        else s.status } := by
  rw [step_of_sequencerNext hn]
  exact sequencerTurn_of_kept (s := { s with inputs := s.inputs.tail }) hi.unread hb ht

/-- A written element holds the element function of the inputs before the step. -/
theorem elem_laneWrites (s : State) {order : List Nat} {i : Nat} (h : i ∈ order) :
    elem (laneWrites s order) s.latch.ybase i =
      axpyElem (elem s.mem s.latch.abase i) (elem s.mem s.latch.bbase i) s.latch.alpha.toInt := by
  rw [elem, elem16_laneWrites s h, toInt_elemResult]

theorem stepCount_axpyB {s : State} (h : s.latch.op = .axpyB) : stepCount s = 1 := by rw [stepCount, h]
theorem stepElems_axpyB {s : State} (h : s.latch.op = .axpyB) : stepElems s = [s.idx] := by rw [stepElems, h]
theorem stepCount_axpyV {s : State} (h : s.latch.op = .axpyV) : stepCount s = laneCount s := by rw [stepCount, h]
theorem stepElems_axpyV {s : State} (h : s.latch.op = .axpyV) : stepElems s = laneElems s := by rw [stepElems, h]

/-- A turn of the sequencer while idle only takes its slot off the schedule (60_exceptions.md R187). -/
theorem step_idle {s : State} (hb : s.status.busy = false) (hn : sequencerNext s = true) :
    step s = .next { s with inputs := s.inputs.tail } := by
  rw [step_of_sequencerNext hn]
  exact sequencerTurn_idle hb

/-- Settles O25: the step of a single element, then the idle block. -/
theorem elementStepEffect : Obligations.ElementStepEffect := by
  refine ⟨fun s hi hb hop ht hn => ⟨laneWrites s [s.idx], ?_, elem_laneWrites s (List.mem_singleton_self _),
    fun a h0 h1 => readByte_laneWrites s _ a ?_⟩, fun s => step_idle⟩
  · rw [step_of_kept hi hb ht hn, stepCount_axpyB hop, stepElems_axpyB hop]
  · simpa only [List.mem_singleton, forall_eq] using ⟨h0, h1⟩

/-- Writing a step's elements in any order leaves the same memory (R152). -/
theorem laneWrites_perm {s : State} (hm : Memory.wf s.mem) {order order' : List Nat} (h : order.Perm order') :
    laneWrites s order = laneWrites s order' :=
  writeElems_eq hm _ (fun _ => h.mem_iff) (fun _ _ => rfl)

/-- Settles O26: the step of `laneCount` elements, in the model's order and in every other. -/
theorem laneStepEffect : Obligations.LaneStepEffect := by
  intro s hi hb hop ht hn k
  have hcount : stepCount s = k := stepCount_axpyV hop
  obtain ⟨-, -, hpos, -, -⟩ := hi.running hb
  have hmem : ∀ j, j < k → s.idx + j ∈ laneElems s := fun j hj => mem_laneElems.2 (by simp only [laneCount]; omega)
  refine ⟨laneWrites s (laneElems s), hcount ▸ hpos, min_le_left _ _, ?_, fun j hj => elem_laneWrites s (hmem j hj),
    fun a ha => readByte_laneWrites s _ a fun i hi' => ?_, fun order => laneWrites_perm hi.memWf⟩
  · rw [step_of_kept hi hb ht hn, hcount, stepElems_axpyV hop]
  · obtain ⟨hlo, hhi⟩ := mem_laneElems.1 hi'
    have hj := ha (i - s.idx) (by simp only [laneCount] at hhi; omega)
    rwa [Nat.add_sub_cancel' hlo] at hj

/-- Settles O27: with one lane the lane step has one element, that of `idx`. -/
theorem oneLaneStepsLikeBaseline : Obligations.OneLaneStepsLikeBaseline := by
  intro s hi hb hl
  have hlt := hi.runLeft hb
  have hcount : laneCount s = 1 := by rw [laneCount, hl]; omega
  have helems : laneElems s = [s.idx] := by rw [laneElems, hcount]; rfl
  rw [stepB_eq_writeElems, stepV, hcount, helems]

/-! ### What a turn always does, and what it never writes -/

/-- Settles O28: an idle turn does nothing, and a running command's elements are inside DMEM. -/
theorem sequencerNeverStops : Obligations.SequencerNeverStops := by
  intro s hi
  rcases Bool.eq_false_or_eq_true s.status.busy with hb | hb
  · exact ⟨_, sequencerTurn_of_good hi hb⟩
  · exact ⟨s, sequencerTurn_idle hb⟩

theorem ne_elemAddr_of_outside {base : Word} {n a i : Nat} (h : inVector base n a = false) (hi : i < n) :
    a ≠ elemAddr base i ∧ a ≠ elemAddr base i + 1 := by
  rw [inVector_false_iff] at h
  simp only [elemAddr]
  omega

/-- A byte outside a vector survives the writing of any of its elements. -/
theorem readByte_writeElems_of_outside {base : Word} {n a : Nat} (f : Nat → Half) {order : List Nat} (m : Memory)
    (h : inVector base n a = false) (horder : ∀ i ∈ order, i < n) :
    readByte (writeElems base f order m) a = readByte m a :=
  readByte_writeElems_of_not_mem _ _ _ _ _ fun i hi => ne_elemAddr_of_outside h (horder i hi)

theorem GoodState.lt_of_mem_stepElems {s : State} (hi : GoodState s) (hb : s.status.busy = true) {i : Nat}
    (h : i ∈ stepElems s) : i < s.latch.n.toNat := by
  obtain ⟨-, -, -, hle, -⟩ := hi.running hb
  have hlt := (mem_stepElems.1 h).2
  omega

/-- A running command's turn leaves in DMEM its elements, and after them, if the contract is broken, drawn ones; all of them
elements of `y` (20_memory.md R61, R74). -/
theorem sequencerTurn_mem {s t : State} (hi : GoodState s) (hb : s.status.busy = true)
    (h : sequencerTurn s = .next t) : t.mem = laneWrites s (stepElems s) ∨
      t.mem = writeElems s.latch.ybase (Config.brokenElement s.draws) (List.range s.latch.n.toNat)
        (laneWrites s (stepElems s)) := by
  rw [sequencerTurn_of_good hi hb] at h
  obtain rfl := Host.Outcome.next.inj h
  rcases (finishStep_spec { s with mem := laneWrites s (stepElems s), idx := s.idx + stepCount s }).2 with hm | ⟨hm, -⟩
  · exact .inl hm
  · exact .inr hm

/-- No byte outside `y` is written by the sequencer (R61). -/
theorem readByte_sequencerTurn {s t : State} (hi : GoodState s) (h : sequencerTurn s = .next t) {a : Nat}
    (ha : inVector s.latch.ybase s.latch.n.toNat a = false) : readByte t.mem a = readByte s.mem a := by
  rcases Bool.eq_false_or_eq_true s.status.busy with hb | hb
  · have hlane : readByte (laneWrites s (stepElems s)) a = readByte s.mem a :=
      readByte_writeElems_of_outside _ _ ha fun _ => hi.lt_of_mem_stepElems hb
    rcases sequencerTurn_mem hi hb h with hm | hm
    · rw [hm, hlane]
    · rw [hm, readByte_writeElems_of_outside _ _ ha fun _ => List.mem_range.1, hlane]
  · rw [sequencerTurn_idle hb] at h
    rw [Host.Outcome.next.inj h]

/-- A turn changes BUSY and DONE at most, both at completion (40_command_flow.md R116). -/
theorem sequencerTurn_status {s t : State} (h : sequencerTurn s = .next t) :
    t.status = s.status ∨ t.status = { s.status with busy := false, done := true } := by
  rcases sequencerTurn_spec h with rfl | ⟨-, ht⟩
  · exact .inl rfl
  · rw [ht]
    split_ifs
    · exact .inr rfl
    · exact .inl rfl

/-- Settles O29: DMEM outside `y`, the idle sequencer, and the fields of the frame. -/
theorem sequencerWritesOnlyOutput : Obligations.SequencerWritesOnlyOutput := by
  intro s t hi h
  have hk := sequencerTurn_kept h
  refine ⟨fun a => readByte_sequencerTurn hi h, fun hb => ?_, hk.regs, hk.ie, hk.result, hk.latch, hk.inputs, ?_⟩
  · rw [sequencerTurn_idle hb] at h
    exact (Host.Outcome.next.inj h).symm
  · rcases sequencerTurn_status h with hst | hst <;> rw [hst] <;> exact ⟨rfl, rfl, rfl⟩

end Sys2Proof.Machine
end

section
/-! PROOFS. The invariant `GoodState`: it holds after reset, and every step keeps it. -/

namespace Sys2Proof.Machine

/-! ### The legal values of STATUS -/

theorem Status.legal_iff (st : Status) : st.legal = true ↔
    (st.busy = true → st.done = false ∧ st.err = false) ∧ (st.ecause = 0#4 ↔ st.err = false) ∧ st.ecause.toNat ≤ 4 := by
  obtain ⟨busy, done, err, drop, ecause⟩ := st
  by_cases hc : ecause = 0#4 <;> cases busy <;> cases done <;> cases err <;> simp [Status.legal, hc]

theorem Status.legal_dropped {st : Status} (h : st.legal = true) : st.dropped.legal = true := h

/-- Clearing ERR clears ECAUSE with it, so an acknowledgement keeps STATUS legal (10_state.md R25). -/
theorem Status.legal_statusClear (v : Word) {st : Status} (h : st.legal = true) : (statusClear v st).legal = true := by
  rw [Status.legal_iff] at h ⊢
  obtain ⟨hbusy, hcause, hle⟩ := h
  simp only [statusClear]
  refine ⟨fun hb => by simp [hbusy hb], ?_⟩
  cases v.getLsbD 2
  · simpa using ⟨hcause, hle⟩
  · simp

theorem Status.legal_rejected {st : Status} (c : Cause) (hb : st.busy = false) : (st.rejected c).legal = true := by
  rw [Status.legal_iff]
  refine ⟨fun h => absurd h (by simp [Status.rejected, hb]), ?_, ?_⟩ <;> cases c <;> simp [Status.rejected, causeCode]

theorem Status.legal_completed {st : Status} (hb : st.busy = false) : st.completed.legal = true := by
  rw [Status.legal_iff]
  exact ⟨fun h => absurd h (by simp [Status.completed, hb]), by simp [Status.completed], by simp [Status.completed]⟩

theorem Status.legal_started (st : Status) : st.started.legal = true := rfl

theorem Status.legal_finished {st : Status} (h : st.legal = true) :
    ({ st with busy := false, done := true } : Status).legal = true := by
  rw [Status.legal_iff] at h ⊢
  exact ⟨nofun, h.2⟩

/-! ### The invariant under the change of one field -/

/-- Settles O30: nothing runs, nothing is written, and every flag is clear. -/
theorem resetIsGood : Obligations.ResetIsGood := fun _ hp =>
  ⟨⟨hp, rfl, List.Pairwise.nil, nofun, rfl, nofun, nofun, nofun⟩, ⟨nofun, nofun⟩⟩

namespace GoodState

variable {s t : State} (h : GoodState s)
include h

/-- A legal STATUS that starts no command. -/
theorem withStatus {st : Status} (hl : st.legal = true) (hb : st.busy = true → s.status.busy = true) :
    GoodState { s with status := st } :=
  ⟨h.params, hl, h.memWf, h.memInside, h.resultQ15,
    fun hr => Bool.eq_false_iff.2 fun hst => by simp [h.heldIdle hr] at hb; simp [hb] at hst,
    fun hst => h.runValid (hb hst), fun hst => h.runLeft (hb hst)⟩

theorem withMem {m : Memory} (hwf : Memory.wf m) (hin : Memory.inside s.params m) : GoodState { s with mem := m } :=
  ⟨h.params, h.status, hwf, hin, h.resultQ15, h.heldIdle, h.runValid, h.runLeft⟩

theorem withResult (r : Half) : GoodState { s with result := r.signExtend 32 } :=
  ⟨h.params, h.status, h.memWf, h.memInside, signExtend_q15 r, h.heldIdle, h.runValid, h.runLeft⟩

/-- An idle block may hold any record (10_state.md R45). -/
theorem withLatch (hb : s.status.busy = false) (l : Latch) : GoodState { s with latch := l } :=
  ⟨h.params, h.status, h.memWf, h.memInside, h.resultQ15, h.heldIdle, fun hb' => by simp [hb] at hb',
    fun hb' => by simp [hb] at hb'⟩

theorem released : GoodState { s with rstHeld := false } :=
  ⟨h.params, h.status, h.memWf, h.memInside, h.resultQ15, nofun, h.runValid, h.runLeft⟩

theorem withIdx {i : Nat} (hi : i < s.latch.n.toNat) : GoodState { s with idx := i } :=
  ⟨h.params, h.status, h.memWf, h.memInside, h.resultQ15, h.heldIdle, h.runValid, fun _ => hi⟩

/-- The elements of a running command's `y` lie inside DMEM (40_command_flow.md R112). -/
theorem elemAddr_lt (hb : s.status.busy = true) {i : Nat} (hi : i < s.latch.n.toNat) :
    elemAddr s.latch.ybase i + 1 < s.params.dmemSize := by
  obtain ⟨-, ⟨-, -, hy⟩, -⟩ := (validate_none_iff _ _ _ _ _).1 (h.runValid hb)
  simp only [elemAddr]
  omega

theorem withElems (hb : s.status.busy = true) (f : Nat → Half) {order : List Nat}
    (ho : ∀ i ∈ order, i < s.latch.n.toNat) : GoodState { s with mem := writeElems s.latch.ybase f order s.mem } :=
  h.withMem (writeElems_wf h.memWf _ _ _)
    (writeElems_inside f order h.memInside fun i hi => h.elemAddr_lt hb (ho i hi))

/-! ### The invariant under each agent's action -/

theorem ofExec {i : Instr} (hr : s.rstHeld = false) (he : exec i s = .next t) : GoodState t := by
  rcases exec_spec i s with ⟨-, he'⟩ | ⟨hb, -, he'⟩ | ⟨hb, -, r, he'⟩ |
    ⟨op, -, hb, ⟨c, -, he'⟩ | ⟨-, -, he'⟩ | ⟨hv, hn, he'⟩⟩
  all_goals obtain rfl := Host.Outcome.next.inj (he'.symm.trans he)
  · exact h.withStatus (Status.legal_dropped h.status) id
  · exact h.withStatus (Status.legal_completed hb) id
  · exact (h.withResult r).withStatus (Status.legal_completed hb) id
  · exact h.withStatus (Status.legal_rejected c hb) id
  · exact (h.withLatch hb (latchedRecord op s)).withStatus (Status.legal_completed hb) id
  · exact ⟨h.params, Status.legal_started _, h.memWf, h.memInside, h.resultQ15, fun hr' => by simp [hr] at hr',
      fun _ => hv, fun _ => hn⟩

theorem ofWriteReg (v : Word) (r : Reg) : GoodState (writeReg v s r) := by
  cases r with
  | cmd | result | reserved => exact h
  | status => exact h.withStatus (Status.legal_statusClear v h.status) id
  | ie | alpha | len | abase | bbase | ybase | opa | opb | wide => exact h.unread

theorem ofAbandonRun : GoodState (abandonRun s) := by
  unfold abandonRun
  split_ifs with hb
  · exact (h.withElems hb (abandonedElem s) fun _ => List.mem_range.1).unread
  · exact h

theorem ofApplyReset : GoodState (applyReset s) :=
  have ha := h.ofAbandonRun
  ⟨ha.params, rfl, ha.memWf, ha.memInside, rfl, fun _ => rfl, nofun, nofun⟩

theorem ofSequencerTurn (hs : sequencerTurn s = .next t) : GoodState t := by
  rcases sequencerTurn_spec hs with rfl | ⟨hb, ht⟩
  · exact h
  · obtain ⟨-, -, -, hle, -⟩ := h.running hb
    have hlane := h.withElems hb (elemResult s.mem s.latch) fun _ => h.lt_of_mem_stepElems hb
    have hmem : GoodState { s with mem := t.mem } := by
      rcases sequencerTurn_mem h hb hs with hm | hm <;> rw [hm]
      · exact hlane
      · exact hlane.withElems hb _ fun _ => List.mem_range.1
    rw [ht]
    split_ifs with hend
    · exact ⟨h.params, Status.legal_finished h.status, hmem.memWf, hmem.memInside, h.resultQ15, fun _ => rfl, nofun,
        nofun⟩
    · exact (hmem.withIdx (lt_of_le_of_ne hle hend)).unread

theorem ofHostEffect {a : HostAction} (he : HostEffect s a t) : GoodState t := by
  cases he with
  | read v => exact h.unread
  | dropped => exact h.withStatus (Status.legal_dropped h.status) id
  | illegal idle => exact h.withStatus (Status.legal_rejected .illegal idle) id
  | command released _ _ run => exact h.ofExec released run
  | store => exact h.ofWriteReg _ _
  | dmemRead => exact h.unread
  | dmemWrite inside =>
    exact (h.withMem (writeBytes_wf h.memWf _ _) (writeBytes_inside _ h.memInside inside)).unread
  | rstAssert => exact h.ofApplyReset
  | rstRelease => exact h.released

end GoodState

/-- Settles O31: the sequencer's turn and each effect of the host keep the invariant. -/
theorem stepKeepsInvariant : Obligations.StepKeepsInvariant := by
  intro s t hi h
  rcases step_effect h with ⟨-, hs⟩ | ⟨a, rest, -, he⟩
  · exact (hi.unread (inputs := s.inputs.tail)).ofSequencerTurn hs
  · exact (hi.unread (inputs := rest)).ofHostEffect he

end Sys2Proof.Machine
end

section
/-! PROOFS. What is known of DMEM while a command runs (`RunProgress`): every step keeps it, and completion delivers the
result (42_axpy_kernel.md R146). -/

namespace Sys2Proof.Machine

/-! ### Steps that leave the run alone -/

/-- `t` goes on with the command that runs in `s`, no element further, and its ranges hold the same bytes. -/
structure SameRun (s t : State) : Prop where
  busy : s.status.busy = true
  kept : s.tainted = false
  latch : t.latch = s.latch
  idx : t.idx = s.idx
  d0 : t.d0 = s.d0
  ranges : ∀ a, inRunRanges s a = true → readByte t.mem a = readByte s.mem a

theorem RunProgress.of_sameRun {s t : State} (hp : RunProgress s) (hi : GoodState s)
    (h : t.status.busy = true → t.tainted = false → SameRun s t) : RunProgress t := by
  refine ⟨fun hb ht i hlt => ?_, fun hb ht a ha hy => ?_⟩ <;> obtain ⟨hb, ht, hlatch, hidx, hd0, hm⟩ := h hb ht
  · have hn := hi.runLeft hb
    rw [hidx] at hlt
    rw [hlatch, hd0, ← hp.written hb ht i hlt]
    refine elem16_congr fun a ha => hm a ((inRunRanges_iff s a).2 (.inr (.inr ?_)))
    simp only [elemAddr] at ha
    omega
  · have ha' : inRunRanges s a = true := by simpa only [inRunRanges, hlatch] using ha
    rw [hm a ha', hd0, hp.untouched hb ht a ha' (by rwa [hlatch, hidx] at hy)]

theorem RunProgress.of_idle {s : State} (hb : s.status.busy = false) : RunProgress s :=
  ⟨fun hb' => by simp [hb] at hb', fun hb' => by simp [hb] at hb'⟩

/-- A command that has just started has written nothing yet. -/
theorem RunProgress.of_start {s : State} (hidx : s.idx = 0) (hd0 : s.d0 = s.mem) : RunProgress s :=
  ⟨fun _ _ i hlt => by simp [hidx] at hlt, fun _ _ a _ _ => by rw [hd0]⟩

theorem RunProgress.of_exec {i : Instr} {s t : State} (hb : s.status.busy = false) (he : exec i s = .next t) :
    RunProgress t := by
  rcases exec_spec i s with ⟨hb', -⟩ | ⟨-, -, he'⟩ | ⟨-, -, r, he'⟩ | ⟨op, -, -, ⟨c, -, he'⟩ | ⟨-, -, he'⟩ | ⟨-, -, he'⟩⟩
  case inl => simp [hb] at hb'
  all_goals obtain rfl := Host.Outcome.next.inj (he'.symm.trans he)
  · exact .of_idle hb
  · exact .of_idle hb
  · exact .of_idle hb
  · exact .of_idle hb
  · exact .of_start rfl rfl

/-! ### The host's write of DMEM -/

/-- A host write that keeps the contract keeps out of the ranges (20_memory.md R74). -/
theorem afterDmemWrite_tainted_iff (addr : Nat) (bytes : List Byte) {s : State} (hb : s.status.busy = true) :
    (afterDmemWrite addr bytes s).tainted = false ↔
      s.tainted = false ∧ ∀ k, k < bytes.length → inRunRanges s (addr + k) = false := by
  simp [afterDmemWrite, hb]

/-- A host write outside the ranges leaves their bytes alone. -/
theorem readByte_afterDmemWrite_inRunRanges {addr : Nat} {bytes : List Byte} {s : State}
    (hout : ∀ k, k < bytes.length → inRunRanges s (addr + k) = false) {a : Nat} (ha : inRunRanges s a = true) :
    readByte (afterDmemWrite addr bytes s).mem a = readByte s.mem a := by
  refine readByte_writeBytes_of_outside _ _ _ _ ?_
  by_contra hin
  have hk := hout (a - addr) (by omega)
  rw [Nat.add_sub_cancel' (by omega), ha] at hk
  exact Bool.noConfusion hk

theorem RunProgress.of_hostEffect {a : HostAction} {s t : State} (hp : RunProgress s) (hi : GoodState s)
    (h : HostEffect s a t) : RunProgress t := by
  cases h with
  | command _ idle _ run => exact .of_exec idle run
  | rstAssert => exact .of_idle rfl
  | read | dropped | illegal | dmemRead | rstRelease =>
    exact hp.of_sameRun hi fun hb ht => ⟨hb, ht, rfl, rfl, rfl, fun _ _ => rfl⟩
  | store =>
    exact hp.of_sameRun hi fun hb ht => ⟨writeReg_busy _ _ _ ▸ hb, writeReg_tainted _ _ _ ▸ ht, writeReg_latch _ _ _,
      writeReg_idx _ _ _, writeReg_d0 _ _ _, fun _ _ => by rw [writeReg_mem]⟩
  | dmemWrite =>
    refine hp.of_sameRun hi fun hb ht => ?_
    obtain ⟨hkept, hout⟩ := (afterDmemWrite_tainted_iff _ _ (s := s) hb).1 ht
    exact ⟨hb, hkept, rfl, rfl, rfl, fun _ => readByte_afterDmemWrite_inRunRanges hout⟩

/-! ### The sequencer's step -/

/-- The step writes the bytes of the elements from `idx` up to the next `idx` only. -/
theorem readByte_step {s : State} {a : Nat} (h : a < elemAddr s.latch.ybase s.idx ∨
    elemAddr s.latch.ybase (s.idx + stepCount s) ≤ a) :
    readByte (laneWrites s (stepElems s)) a = readByte s.mem a := by
  refine readByte_laneWrites s _ a fun i hi => ?_
  have hi' := mem_stepElems.1 hi
  simp only [elemAddr] at h ⊢
  omega

/-- After a step the elements before the new `idx` are final: the earlier ones are untouched, and the step's own are
computed from inputs that are still as at acceptance. -/
theorem RunProgress.elem16_step {s : State} (hp : RunProgress s) (hi : GoodState s) (hb : s.status.busy = true)
    (ht : s.tainted = false) {i : Nat} (h : i < s.idx + stepCount s) :
    elem16 (laneWrites s (stepElems s)) s.latch.ybase i = elemResult s.d0 s.latch i := by
  rcases Nat.lt_or_ge i s.idx with hlt | hge
  · rw [← hp.written hb ht i hlt]
    refine elem16_congr fun a ha => readByte_step (.inl ?_)
    simp only [elemAddr] at ha ⊢
    omega
  · have hmem : i ∈ stepElems s := mem_stepElems.2 ⟨hge, h⟩
    rw [elem16_laneWrites s hmem, hp.result_original hi hb ht hge (hi.lt_of_mem_stepElems hb hmem)]

theorem RunProgress.of_sequencerTurn {s t : State} (hp : RunProgress s) (hi : GoodState s)
    (h : sequencerTurn s = .next t) : RunProgress t := by
  rcases sequencerTurn_spec h with rfl | ⟨hb, ht⟩
  · exact hp
  · have hkept := (sequencerTurn_kept h).tainted
    refine ⟨fun _ htaint i hlt => ?_, fun _ htaint a ha hy => ?_⟩
    all_goals
      rw [hkept] at htaint
      rw [sequencerTurn_of_kept hi hb htaint] at h
      obtain rfl := Host.Outcome.next.inj h
    · exact hp.elem16_step hi hb htaint hlt
    · have hout : a < s.latch.ybase.toNat ∨ s.latch.ybase.toNat + 2 * (s.idx + stepCount s) ≤ a :=
        (inVector_false_iff _ _ _).1 hy
      refine .trans (readByte_step ?_) (hp.untouched hb htaint a ha ((inVector_false_iff _ _ _).2 (by omega)))
      simp only [elemAddr]
      omega

/-- Settles O32: the sequencer's turn and each effect of the host keep what is known. -/
theorem stepKeepsRunProgress : Obligations.StepKeepsRunProgress := by
  intro s t hi hp h
  have hp' : ∀ rest, RunProgress { s with inputs := rest } := fun _ => ⟨hp.written, hp.untouched⟩
  rcases step_effect h with ⟨-, hs⟩ | ⟨a, rest, -, he⟩
  · exact (hp' s.inputs.tail).of_sequencerTurn hi.unread hs
  · exact (hp' rest).of_hostEffect hi.unread he

/-! ### Completion -/

/-- A command ends with DONE only in the sequencer's turn that reaches `L.n` (40_command_flow.md R116). -/
theorem StatusStep.completes {s t : State} (h : StatusStep s t) (hb : s.status.busy = true)
    (hb' : t.status.busy = false) (hd : t.status.done = true) : sequencerNext s = true ∧ t.idx = s.latch.n.toNat := by
  cases h with
  | finished turn _ idx _ => exact ⟨turn, idx⟩
  | reset _ status => simp [status, Status.reset] at hd
  | accepted _ _ _ idle _ => simp [idle] at hb
  | kept status | acknowledged _ _ _ status | dropped _ _ _ _ status =>
    simp [status, statusClear, Status.dropped, hb] at hb'

/-- Settles O33: the completing step is the sequencer's, and it leaves every element before `L.n` final. -/
theorem completionDeliversResult : Obligations.CompletionDeliversResult := by
  intro s t hi hp hb ht h hb' hd
  obtain ⟨hn, hidx⟩ := (step_statusStep h).completes hb hb' hd
  rw [step_of_kept hi hb ht hn] at h
  obtain rfl := Host.Outcome.next.inj h
  refine ⟨hidx, fun i hlt => ?_⟩
  rw [elem, hp.elem16_step hi hb ht (lt_of_lt_of_eq hlt hidx.symm), toInt_elemResult]

end Sys2Proof.Machine
end

section
/-! PROOFS. A running command with a silent host: it completes in a bounded number of steps (40_command_flow.md section 4). -/

namespace Sys2Proof.Machine

/-- Runs of the machine compose. -/
theorem run_add {k : Nat} (m : Nat) {s t : State} (h : Host.Core.run core k s = .next t) :
    Host.Core.run core (k + m) s = Host.Core.run core m t := by
  induction k generalizing s with
  | zero => rw [Nat.zero_add, Host.Outcome.next.inj h]
  | succ k ih =>
    rw [Nat.add_right_comm]
    cases hs : step s with
    | next s' =>
      rw [run_step hs] at h ⊢
      exact ih h
    | fault | refused =>
      have hs' : core.step s = _ := hs
      simp [Host.Core.run, hs'] at h

theorem run_succ {k : Nat} {s t u : State} (h : Host.Core.run core k s = .next t) (hs : step t = .next u) :
    Host.Core.run core (k + 1) s = .next u := by
  rw [run_add 1 h, run_one hs]

/-- One turn of a running command with a silent host: it completes the command, or it goes on with fewer elements left. -/
theorem step_running_silent {s : State} (hi : GoodState s) (hb : s.status.busy = true) (hin : s.inputs = []) :
    ∃ t, step s = .next t ∧ GoodState t ∧ t.inputs = [] ∧ t.latch = s.latch ∧
      (t.status = { s.status with busy := false, done := true } ∨ t.status = s.status ∧ s.idx < t.idx) := by
  obtain ⟨-, -, hpos, -, -⟩ := hi.running hb
  have hs := sequencerTurn_of_good hi hb
  have hk := sequencerTurn_kept hs
  refine ⟨_, (step_silent hin).trans hs, hi.ofSequencerTurn hs, hk.inputs.trans hin, hk.latch, ?_⟩
  rw [(finishStep_spec _).1]
  dsimp only
  split_ifs
  · exact .inl rfl
  · exact .inr ⟨rfl, by omega⟩

/-- Any number of steps that is at least the number of elements left completes the command. -/
theorem run_completes (k : Nat) {s : State} (hi : GoodState s) (hb : s.status.busy = true) (hin : s.inputs = [])
    (hk : s.latch.n.toNat - s.idx ≤ k) : ∃ u, Host.Core.run core k s = .next u ∧
      u.status = { s.status with busy := false, done := true } ∧ u.latch = s.latch := by
  induction k generalizing s with
  | zero =>
    have hleft := hi.runLeft hb
    omega
  | succ k ih =>
    obtain ⟨t, hs, hi', hin', hlatch, hst | ⟨hst, hidx⟩⟩ := step_running_silent hi hb hin <;> rw [run_step hs]
    · exact ⟨t, run_idle k hin' (by rw [hst]), hst, hlatch⟩
    · rw [← hst, ← hlatch]
      exact ih hi' (hst ▸ hb) hin' (by rw [hlatch]; omega)

/-- Settles O37: `n - idx` steps are enough, whether or not the contract is broken. -/
theorem runningCommandCompletes : Obligations.RunningCommandCompletes := fun _ hi hb hin =>
  run_completes _ hi hb hin le_rfl

end Sys2Proof.Machine
end

section
/-! PROOFS. A whole vector command with a silent host: the exact states it passes through, for both strategies at once
(42_axpy_kernel.md R146, R153). -/

namespace Sys2Proof.Machine

/-! ### The states of a run -/

/-- The elements of one full step of a strategy (R150, R152). -/
def stride (op : VecOp) (p : Params) : Nat := match op with
  | .axpyB => 1
  | .axpyV => p.lanes

/-- The command started in `s`, with its first `j` elements written. -/
def midRun (s : State) (j : Nat) : State :=
  { s with mem := writeElems s.latch.ybase (elemResult s.mem s.latch) (List.range j) s.mem, idx := j }

/-- The command started in `s`, completed. -/
def endOfRun (s : State) : State :=
  { s with mem := finishedMemory s.mem s.latch, idx := s.latch.n.toNat
           status := { s.status with busy := false, done := true } }

/-- A command that has just been accepted, and a host that stays silent. -/
structure Launched (s : State) : Prop where
  good : GoodState s
  busy : s.status.busy = true
  kept : s.tainted = false
  idx : s.idx = 0
  d0 : s.d0 = s.mem
  silent : s.inputs = []

theorem stepCount_eq_min {s : State} (h : s.idx < s.latch.n.toNat) :
    stepCount s = min (stride s.latch.op s.params) (s.latch.n.toNat - s.idx) := by
  unfold stepCount stride laneCount
  cases s.latch.op <;> dsimp only
  omega

/-- The step's elements follow those before `idx`. -/
theorem range_append_stepElems (s : State) : List.range s.idx ++ stepElems s = List.range (s.idx + stepCount s) := by
  rw [List.range_add]
  unfold stepElems stepCount
  cases s.latch.op <;> rfl

theorem writeElems_append (base : Word) (f : Nat → Half) (is js : List Nat) (m : Memory) :
    writeElems base f (is ++ js) m = writeElems base f js (writeElems base f is m) := List.foldl_append

theorem writeElems_congr {base : Word} {f g : Nat → Half} {is : List Nat} (h : ∀ i ∈ is, f i = g i) (m : Memory) :
    writeElems base f is m = writeElems base g is m := List.foldl_ext _ _ _ fun m' i hi => by rw [h i hi]

namespace Launched

variable {s : State} (h : Launched s)
include h

theorem midRun_zero : midRun s 0 = s := by
  have hidx := h.idx
  obtain ⟨⟩ := s
  subst hidx
  rfl

theorem midRun_good {j : Nat} (hj : j < s.latch.n.toNat) : GoodState (midRun s j) :=
  (h.good.withElems h.busy (elemResult s.mem s.latch) fun _ hi => (List.mem_range.1 hi).trans hj).withIdx hj

theorem midRun_progress (j : Nat) : RunProgress (midRun s j) := by
  refine ⟨fun _ _ i hi => ?_, fun _ _ a _ ha => ?_⟩
  · refine (elem16_writeElems_of_mem _ _ _ _ i (List.mem_range.2 hi)).trans ?_
    rw [← h.d0]
    rfl
  · refine (readByte_writeElems_of_outside _ _ ha fun _ => List.mem_range.1).trans ?_
    rw [← h.d0]
    rfl

/-- The step from `j` elements: its inputs are still as at acceptance, so it writes the final patterns of its elements. -/
theorem laneWrites_midRun {j : Nat} (hj : j < s.latch.n.toNat) :
    laneWrites (midRun s j) (stepElems (midRun s j)) =
      writeElems s.latch.ybase (elemResult s.mem s.latch) (List.range (j + stepCount (midRun s j))) s.mem := by
  have hi := h.midRun_good hj
  have horig : ∀ i ∈ stepElems (midRun s j), elemResult (midRun s j).mem s.latch i = elemResult s.mem s.latch i := by
    intro i hmem
    rw [← h.d0]
    exact (h.midRun_progress j).result_original hi h.busy h.kept (mem_stepElems.1 hmem).1
      (hi.lt_of_mem_stepElems h.busy hmem)
  have happ : List.range j ++ stepElems (midRun s j) = List.range (j + stepCount (midRun s j)) :=
    range_append_stepElems (midRun s j)
  rw [← happ, writeElems_append]
  exact writeElems_congr horig _

theorem step_midRun {j : Nat} (hj : j < s.latch.n.toNat) : step (midRun s j) =
    .next (if j + stride s.latch.op s.params < s.latch.n.toNat then midRun s (j + stride s.latch.op s.params)
      else endOfRun s) := by
  have hcount : stepCount (midRun s j) = min (stride s.latch.op s.params) (s.latch.n.toNat - j) :=
    stepCount_eq_min (s := midRun s j) hj
  have hturn : step (midRun s j) = .next { midRun s (j + stepCount (midRun s j)) with
      status := if j + stepCount (midRun s j) = s.latch.n.toNat then { s.status with busy := false, done := true }
        else s.status } := by
    rw [step_silent (s := midRun s j) h.silent, sequencerTurn_of_kept (h.midRun_good hj) h.busy h.kept,
      h.laneWrites_midRun hj]
    rfl
  rw [hturn]
  split_ifs with hend hmore
  · omega
  · rw [hend]; rfl
  · rw [show stepCount (midRun s j) = stride s.latch.op s.params by omega]; rfl
  · omega

/-- The state after `k` full steps. -/
theorem run_midRun (k : Nat) (hk : k * stride s.latch.op s.params < s.latch.n.toNat) :
    Host.Core.run core k s = .next (midRun s (k * stride s.latch.op s.params)) := by
  induction k with
  | zero => rw [Nat.zero_mul, h.midRun_zero]; rfl
  | succ k ih =>
    rw [Nat.succ_mul] at hk ⊢
    have hlt := (Nat.le_add_right _ _).trans_lt hk
    refine run_succ (ih hlt) ?_
    rw [h.step_midRun hlt, if_pos hk]

/-- The step that reaches `L.n`. -/
theorem run_endOfRun {k : Nat} (hk : k * stride s.latch.op s.params < s.latch.n.toNat)
    (hn : s.latch.n.toNat ≤ (k + 1) * stride s.latch.op s.params) :
    Host.Core.run core (k + 1) s = .next (endOfRun s) := by
  refine run_succ (h.run_midRun k hk) ?_
  rw [h.step_midRun hk, if_neg (by rwa [← Nat.succ_mul, not_lt])]

end Launched

/-! ### The number of steps -/

/-- The steps a strategy takes for `n` elements: `ceil(n / stride)` (40_command_flow.md section 4). -/
def runLength (c n : Nat) : Nat := (n + c - 1) / c

theorem lt_runLength_iff {c : Nat} (hc : 1 ≤ c) (n k : Nat) : k < runLength c n ↔ k * c < n := by
  rw [runLength, ← Nat.succ_le_iff, Nat.le_div_iff_mul_le hc, Nat.succ_mul]
  omega

theorem runLength_one (n : Nat) : runLength 1 n = n := by rw [runLength, Nat.add_sub_cancel, Nat.div_one]

theorem runLength_le {c : Nat} (hc : 1 ≤ c) (n : Nat) : runLength c n ≤ n := by
  rw [← not_lt, lt_runLength_iff hc, not_lt]
  exact Nat.le_mul_of_pos_right n hc

theorem GoodState.one_le_stride {s : State} (hi : GoodState s) (op : VecOp) : 1 ≤ stride op s.params := by
  have hp := hi.params
  simp only [Params.wf, Bool.and_eq_true, decide_eq_true_eq] at hp
  cases op with
  | axpyB => exact le_rfl
  | axpyV => exact hp.2

/-! ### What a finished command leaves in DMEM -/

theorem elem_finishedMemory (m : Memory) (l : Latch) {i : Nat} (h : i < l.n.toNat) :
    elem (finishedMemory m l) l.ybase i = axpyElem (elem m l.abase i) (elem m l.bbase i) l.alpha.toInt := by
  rw [elem, finishedMemory, elem16_writeElems_of_mem _ _ _ _ _ (List.mem_range.2 h), toInt_elemResult]

theorem readByte_finishedMemory (m : Memory) (l : Latch) {a : Nat} (h : inVector l.ybase l.n.toNat a = false) :
    readByte (finishedMemory m l) a = readByte m a :=
  readByte_writeElems_of_outside _ _ h fun _ => List.mem_range.1

/-! ### A whole command -/

theorem Status.started_finished {st : Status} (hb : st.busy = false) :
    ({ st.started with busy := false, done := true } : Status) = st.completed := by
  rw [← hb]; rfl

/-- The command `op` presented in `s` is accepted in `t`, runs until `u`, and delivers its result there. -/
structure Delivers (op : VecOp) (s t u : State) : Prop where
  accepted : exec op.instr s = .next t
  acceptedStatus : t.status = if s.regs.len.toNat = 0 then s.status.completed else s.status.started
  before : ∀ k, k < runLength (stride op s.params) s.regs.len.toNat →
    ∃ v, Host.Core.run core k t = .next v ∧ v.status = s.status.started
  run : Host.Core.run core (runLength (stride op s.params) s.regs.len.toNat) t = .next u
  status : u.status = s.status.completed
  mem : u.mem = finishedMemory s.mem (latchedRecord op s)
  silent : u.inputs = []

/-- A command launched by an acceptance passes through `midRun` and ends in `endOfRun`. -/
theorem delivers_of_launched {op : VecOp} {s t : State} (hb : s.status.busy = false) (hn : 0 < s.regs.len.toNat)
    (hc : 1 ≤ stride op s.params) (hl : Launched t)
    (ht : t = { s with latch := latchedRecord op s, idx := 0, status := s.status.started, d0 := s.mem, tainted := false })
    (he : exec op.instr s = .next t) : Delivers op s t (endOfRun t) := by
  have hlen : ∀ k, k < runLength (stride op s.params) s.regs.len.toNat ↔ k * stride op s.params < s.regs.len.toNat :=
    lt_runLength_iff hc _
  obtain ⟨k, hk⟩ : ∃ k, runLength (stride op s.params) s.regs.len.toNat = k + 1 :=
    Nat.exists_eq_add_one.2 ((hlen 0).2 (by rwa [Nat.zero_mul]))
  subst ht
  exact
    { accepted := he
      acceptedStatus := (if_neg hn.ne').symm
      before := fun j hj => ⟨_, hl.run_midRun j ((hlen j).1 hj), rfl⟩
      run := hk ▸ hl.run_endOfRun ((hlen k).1 (by omega)) (not_lt.1 (mt (hlen (k + 1)).2 (by omega)))
      status := Status.started_finished hb
      mem := rfl
      silent := hl.silent }

/-- An accepted vector command delivers its result, whatever the strategy. -/
theorem exists_delivers (op : VecOp) {s : State} (hi : GoodState s) (hb : s.status.busy = false)
    (hr : s.rstHeld = false) (hin : s.inputs = []) (hv : operandCause s = none) : ∃ t u, Delivers op s t u := by
  have hc := hi.one_le_stride op
  rcases exec_vector_idle op hb with ⟨c, hc', -⟩ | ⟨-, hn, he⟩ | ⟨-, hn, he⟩
  · simp [hv] at hc'
  · have hzero : runLength (stride op s.params) s.regs.len.toNat = 0 := Nat.le_zero.1 (hn ▸ runLength_le hc _)
    refine ⟨_, _, he, (if_pos hn).symm, fun k hk => ?_, congrArg (Host.Core.run core · _) hzero, rfl, ?_, hin⟩
    · omega
    · rw [finishedMemory, show (latchedRecord op s).n.toNat = 0 from hn]; rfl
  · have hl : Launched _ := ⟨hi.ofExec hr he, rfl, rfl, rfl, rfl, hin⟩
    exact ⟨_, _, delivers_of_launched hb hn hc hl rfl he⟩

/-- Settles O34: AXPY.B's stride is 1, so it takes `n` steps. -/
theorem baselineCommandResult : Obligations.BaselineCommandResult := by
  intro s hi hb hr hin hv n
  obtain ⟨t, u, h⟩ := exists_delivers .axpyB hi hb hr hin hv
  have hlen : runLength (stride .axpyB s.params) n = n := runLength_one n
  refine ⟨t, u, h.accepted, hlen ▸ h.run, h.status, fun k hk => h.before k (hlen.symm ▸ hk), fun i hlt => ?_,
    fun a ha => ?_⟩ <;> rw [h.mem]
  · exact elem_finishedMemory s.mem (latchedRecord .axpyB s) hlt
  · exact readByte_finishedMemory s.mem (latchedRecord .axpyB s) ha

/-- Settles O35: AXPY.V's stride is LANES. -/
theorem laneCommandResult : Obligations.LaneCommandResult := by
  intro s hi hb hr hin hv n steps
  obtain ⟨t, u, h⟩ := exists_delivers .axpyV hi hb hr hin hv
  refine ⟨t, u, h.accepted, h.run, h.status, h.before, fun i hlt => ?_, fun a ha => ?_⟩ <;> rw [h.mem]
  · exact elem_finishedMemory s.mem (latchedRecord .axpyV s) hlt
  · exact readByte_finishedMemory s.mem (latchedRecord .axpyV s) ha

/-! ### The equivalence of the strategies -/

theorem GoodState.withLanes {s : State} (hi : GoodState s) {lanes : Nat} (hl : 1 ≤ lanes) :
    GoodState { s with params := { s.params with lanes := lanes } } := by
  have hp := hi.params
  simp only [Params.wf, Bool.and_eq_true, decide_eq_true_eq] at hp
  refine ⟨?_, hi.status, hi.memWf, hi.memInside, hi.resultQ15, hi.heldIdle, hi.runValid, hi.runLeft⟩
  simpa only [Params.wf, Bool.and_eq_true, decide_eq_true_eq] using ⟨hp.1, hl⟩

/-- After `n` steps a delivered command rests in its final state, whatever the strategy. -/
theorem Delivers.run_len {op : VecOp} {s t u : State} (h : Delivers op s t u) (hc : 1 ≤ stride op s.params)
    (hb : s.status.busy = false) : Host.Core.run core s.regs.len.toNat t = .next u := by
  have hidle : u.status.busy = false := by rw [h.status]; exact hb
  rw [← Nat.add_sub_cancel' (runLength_le hc s.regs.len.toNat), run_add _ h.run]
  exact run_idle _ h.silent hidle

/-- Settles O36: neither the validation nor the finished memory depends on the strategy or on LANES. -/
theorem strategiesAgree : Obligations.StrategiesAgree := by
  intro s lanes hi hl hb hr hin v
  have hiv : GoodState v := hi.withLanes hl
  have hcause : operandCause v = operandCause s := rfl
  refine ⟨fun c hc => ⟨exec_vector_rejected .axpyB hb hc, exec_vector_rejected .axpyV (s := v) hb (hcause.trans hc)⟩,
    fun hv => ?_⟩
  obtain ⟨tB, uB, hB⟩ := exists_delivers .axpyB hi hb hr hin hv
  obtain ⟨tV, uV, hV⟩ := exists_delivers .axpyV hiv hb hr hin (hcause.trans hv)
  exact ⟨tB, tV, uB, uV, hB.accepted, hV.accepted, hB.acceptedStatus.trans hV.acceptedStatus.symm,
    hB.run_len (hi.one_le_stride _) hb, hV.run_len (hiv.one_le_stride _) hb, hB.mem.trans hV.mem.symm,
    hB.status.trans hV.status.symm, by rw [hB.status]; exact hb⟩

end Sys2Proof.Machine
end

section
/-! PROOFS. The host and DMEM: its reads and writes while idle and during a run (20_memory.md section 5), and the bytes a
reset leaves (70_reset_and_hazards.md section 1). -/

namespace Sys2Proof.Machine

theorem step_dmemWrite {s : State} {rest : List Slot} {addr : Nat} {bytes : List Byte} (hr : s.rstHeld = false)
    (h : s.inputs = .host (.dmemWrite addr bytes) :: rest) (hle : addr + bytes.length ≤ s.params.dmemSize) :
    step s = .next (afterDmemWrite addr bytes { s with inputs := rest }) := by
  rw [step_of_host h]
  exact hostDmemWrite_of_le (s := { s with inputs := rest }) hr hle

theorem step_dmemRead {s : State} {rest : List Slot} {addr count : Nat} (hr : s.rstHeld = false)
    (h : s.inputs = .host (.dmemRead addr count) :: rest) (hle : addr + count ≤ s.params.dmemSize) :
    step s = .next (afterDmemRead addr count { s with inputs := rest }) := by
  rw [step_of_host h]
  exact hostDmemRead_of_le (s := { s with inputs := rest }) hr hle

/-! ### What the host sees -/

theorem hostSeesByte_idle {s : State} (hb : s.status.busy = false) (a : Nat) :
    hostSeesByte s a = readByte s.mem a := by simp [hostSeesByte, hb]

theorem hostSeesByte_outside {s : State} {a : Nat} (h : inVector s.latch.ybase s.latch.n.toNat a = false) :
    hostSeesByte s a = readByte s.mem a := by simp [hostSeesByte, h]

/-- Each byte of an element of a running command's `y` is seen as a byte of the one pattern drawn for it (R66, R73). -/
theorem hostSeesByte_elem {s : State} (hb : s.status.busy = true) {i j : Nat} (hi : i < s.latch.n.toNat) (hj : j < 2) :
    hostSeesByte s (elemAddr s.latch.ybase i + j) = (busyElem s i).extractLsb' (8 * j) 8 := by
  have hin : inVector s.latch.ybase s.latch.n.toNat (elemAddr s.latch.ybase i + j) = true := by
    rw [inVector_iff, elemAddr]
    omega
  have hd : elemAddr s.latch.ybase i + j - s.latch.ybase.toNat = 2 * i + j := by rw [elemAddr]; omega
  simp only [hostSeesByte, hb, hin, hd, Bool.and_self, if_true]
  rw [show (2 * i + j) / 2 = i by omega, show (2 * i + j) % 2 = j by omega]

/-- While the host keeps the contract, what it sees of an element is as at acceptance or final (R73). -/
theorem busyElem_of_kept {s : State} (ht : s.tainted = false) (i : Nat) :
    busyElem s i = elem16 s.d0 s.latch.ybase i ∨ busyElem s i = elemResult s.d0 s.latch i := by
  simp only [busyElem, ht, Bool.false_eq_true, if_false]
  split_ifs
  · exact .inr rfl
  · exact .inl rfl

/-- A read during a run gives, for each element of `y`, one of its two patterns, byte by byte. -/
theorem busyElem_spec {s : State} (hb : s.status.busy = true) (ht : s.tainted = false) {i : Nat}
    (hi : i < s.latch.n.toNat) : ∃ h : Half, (h = elem16 s.d0 s.latch.ybase i ∨
        h.toInt = axpyElem (elem s.d0 s.latch.abase i) (elem s.d0 s.latch.bbase i) s.latch.alpha.toInt) ∧
      ∀ j, j < 2 → hostSeesByte s (elemAddr s.latch.ybase i + j) = h.extractLsb' (8 * j) 8 :=
  ⟨busyElem s i, (busyElem_of_kept ht i).imp_right fun h => by rw [h, toInt_elemResult],
    fun _ => hostSeesByte_elem hb hi⟩

theorem getElem?_afterDmemRead {s : State} {addr count k : Nat} (hk : k < count) :
    (afterDmemRead addr count s).dmemData[k]? = some (hostSeesByte s (addr + k)) := by
  simp [afterDmemRead, hk]

/-- Settles O52: the read's bytes while idle, outside `y` and in `y`; then the inputs, which a run leaves as accepted. -/
theorem hostReadsDuringRun : Obligations.HostReadsDuringRun := by
  refine ⟨fun s rest addr count hr h hle => ?_, fun s a hi hp hb ht ha hy => hp.untouched hb ht a ha ?_⟩
  · let s' : State := { s with inputs := rest }
    refine ⟨_, _, step_dmemRead hr h hle, by simp, fun hb => ?_, fun k hk hy => ?_, fun hb ht i hi => ?_⟩
    · exact List.map_congr_left fun k _ => hostSeesByte_idle (s := s') hb _
    · rw [← hostSeesByte_outside (s := s') hy]
      exact getElem?_afterDmemRead hk
    · obtain ⟨p, hp, hbytes⟩ := busyElem_spec (s := s') hb ht hi
      refine ⟨p, hp, fun j k hj hk ha => ?_⟩
      rw [← hbytes j hj]
      exact ha ▸ getElem?_afterDmemRead hk
  · have hlt := hi.runLeft hb
    rw [inVector_false_iff] at hy ⊢
    omega

/-! ### What the host writes -/

/-- What an idle block stores it also shows (R60, R72). -/
theorem dmemData_afterDmemRead_afterDmemWrite {s t : State} (addr : Nat) (bytes : List Byte)
    (hb : t.status.busy = false) (hm : t.mem = writeBytes s.mem addr bytes) :
    (afterDmemRead addr bytes.length t).dmemData = bytes := by
  refine List.ext_getElem (by simp [afterDmemRead]) fun k _ hk => ?_
  simp only [afterDmemRead, List.getElem_map, List.getElem_range]
  rw [hostSeesByte_idle hb, hm, readByte_writeBytes_of_inside _ _ _ _ hk]

/-- Settles O50: the write, then the read of the same addresses. -/
theorem hostMemoryRoundTrip : Obligations.HostMemoryRoundTrip := by
  intro s rest addr bytes hr hb h hle
  let t := afterDmemWrite addr bytes { s with inputs := .host (.dmemRead addr bytes.length) :: rest }
  have hread : step t = _ := step_dmemRead (s := t) hr rfl hle
  exact ⟨_, (run_step (step_dmemWrite hr h hle)).trans (run_one hread),
    dmemData_afterDmemRead_afterDmemWrite (s := s) addr bytes hb rfl,
    fun a => readByte_writeBytes_of_outside s.mem addr a bytes, rfl, rfl, rfl⟩

/-- Settles O53: the bytes written, the frame, and the two sides of the contract. -/
theorem hostWritesDuringRun : Obligations.HostWritesDuringRun := by
  intro s rest addr bytes hr hb h hle
  let s' : State := { s with inputs := rest }
  have htaint := afterDmemWrite_tainted_iff addr bytes (s := s') hb
  refine ⟨_, _, step_dmemWrite hr h hle, fun k hk => readByte_writeBytes_of_inside _ _ _ _ hk,
    fun a => readByte_writeBytes_of_outside _ _ _ _, fun hout => ⟨?_, fun a =>
    readByte_afterDmemWrite_inRunRanges (s := s') hout⟩, fun ⟨k, hk, hin⟩ => ?_⟩
  · rw [Bool.eq_iff_iff, ← not_iff_not, Bool.not_eq_true, Bool.not_eq_true]
    exact htaint.trans (and_iff_left hout)
  · rw [← Bool.not_eq_false]
    intro hfalse
    have hout := (htaint.1 hfalse).2 k hk
    exact Bool.noConfusion (hout.symm.trans hin)

/-! ### What a reset leaves of a run -/

theorem applyReset_mem_idle {s : State} (hb : s.status.busy = false) : (applyReset s).mem = s.mem := by
  simp [applyReset, abandonRun, hb]

theorem applyReset_mem_running {s : State} (hb : s.status.busy = true) : (applyReset s).mem =
    writeElems s.latch.ybase (abandonedElem s) (List.range s.latch.n.toNat) s.mem := by
  simp [applyReset, abandonRun, hb]

/-- While the host keeps the contract, reset leaves an element as at acceptance or final (R201). -/
theorem abandonedElem_of_kept {s : State} (ht : s.tainted = false) (i : Nat) :
    abandonedElem s i = elem16 s.d0 s.latch.ybase i ∨ abandonedElem s i = elemResult s.d0 s.latch i := by
  simp only [abandonedElem, ht, Bool.false_eq_true, if_false]
  split_ifs
  · exact .inr rfl
  · exact .inl rfl

theorem readByte_applyReset {s : State} {a : Nat}
    (h : s.status.busy = true → inVector s.latch.ybase s.latch.n.toNat a = false) :
    readByte (applyReset s).mem a = readByte s.mem a := by
  rcases Bool.eq_false_or_eq_true s.status.busy with hb | hb
  · rw [applyReset_mem_running hb, readByte_writeElems_of_outside _ _ (h hb) fun _ => List.mem_range.1]
  · rw [applyReset_mem_idle hb]

/-- Settles O56: reset during a run, element by element and byte by byte, then reset while idle. -/
theorem resetDuringRun : Obligations.ResetDuringRun := by
  refine ⟨fun s rest hb ht h => ?_, fun s t rest hb h hs => ?_⟩
  · let s' : State := { s with inputs := rest }
    refine ⟨_, step_rstAssert h, rfl, rfl, fun i hi => ?_, fun a ha => readByte_applyReset (s := s') fun _ => ha⟩
    have helem : elem16 (applyReset s').mem s.latch.ybase i = abandonedElem s' i := by
      rw [applyReset_mem_running (s := s') hb]
      exact elem16_writeElems_of_mem _ _ _ _ i (List.mem_range.2 hi)
    rw [elem, helem]
    exact (abandonedElem_of_kept (s := s') ht i).imp_right fun h => by rw [h, toInt_elemResult]
  · rw [step_rstAssert h] at hs
    rw [← Host.Outcome.next.inj hs]
    exact applyReset_mem_idle hb

end Sys2Proof.Machine
end

section
/-! PROOFS. Who can change what (10_state.md section 5): the operand registers, RESULT, the latched record, DMEM, the hold of
`rst`, and the rise of each flag. -/

namespace Sys2Proof.Machine

/-! ### What each host action can change -/

/-- Only a write to offsets 0x08 to 0x28 stores an operand register or IE (R21, R34). -/
theorem writeReg_operands (v : Word) (s : State) {off width : Nat} {r : Reg} (hreg : regAt off width = some r) :
    (writeReg v s r).regs = s.regs ∧ (writeReg v s r).ie = s.ie ∨ 0x08 ≤ off ∧ off ≤ 0x28 := by
  obtain ⟨-, -, -, hoff⟩ := regAt_some hreg
  cases r with
  | cmd | status | result | reserved => exact .inl ⟨rfl, rfl⟩
  | ie | alpha | len | abase | bbase | ybase | opa | opb | wide =>
    rw [hoff nofun]
    exact .inr (by decide)

theorem HostEffect.operands {a : HostAction} {s t : State} (h : HostEffect s a t) : (t.regs = s.regs ∧ t.ie = s.ie) ∨
    (∃ off v, a = .regWrite off 32 v ∧ 0x08 ≤ off ∧ off ≤ 0x28) ∨ a = .rstAssert := by
  cases h with
  | store register _ => exact (writeReg_operands _ s register).imp_right fun hoff => .inl ⟨_, _, rfl, hoff⟩
  | rstAssert => exact .inr (.inr rfl)
  | command _ _ _ run => exact .inl ⟨(exec_kept run).regs, (exec_kept run).ie⟩
  | read | dropped | illegal | dmemRead | dmemWrite | rstRelease => exact .inl ⟨rfl, rfl⟩

theorem HostEffect.result {a : HostAction} {s t : State} (h : HostEffect s a t) : t.result = s.result ∨
    (∃ w, a = .regWrite 0x00 32 w ∧ s.status.busy = false ∧ (w = encode .sat ∨ w = encode .axpy1)) ∨
    a = .rstAssert := by
  cases h with
  | store => exact .inl (writeReg_result _ _ _)
  | rstAssert => exact .inr (.inr rfl)
  | @command w i _ _ idle word run =>
    by_cases hi : i = .sat ∨ i = .axpy1
    · exact .inr (.inl ⟨w, rfl, idle, hi.imp (fun h => by rw [word, h]) (fun h => by rw [word, h])⟩)
    · exact .inl (exec_result run (fun h => hi (.inl h)) (fun h => hi (.inr h)))
  | read | dropped | illegal | dmemRead | dmemWrite | rstRelease => exact .inl rfl

theorem HostEffect.rstHeld {a : HostAction} {s t : State} (h : HostEffect s a t) :
    t.rstHeld = s.rstHeld ∨ (a = .rstAssert ∧ t.rstHeld = true) ∨ (a = .rstRelease ∧ t.rstHeld = false) := by
  cases h with
  | store => exact .inl (writeReg_rstHeld _ _ _)
  | command _ _ _ run => exact .inl (exec_kept run).rstHeld
  | rstAssert => exact .inr (.inl ⟨rfl, rfl⟩)
  | rstRelease => exact .inr (.inr ⟨rfl, rfl⟩)
  | read | dropped | illegal | dmemRead | dmemWrite => exact .inl rfl

theorem HostEffect.readByte {a : HostAction} {s t : State} (h : HostEffect s a t) (x : Nat) :
    readByte t.mem x = readByte s.mem x ∨
    (∃ addr bytes, a = .dmemWrite addr bytes ∧ addr ≤ x ∧ x < addr + bytes.length) ∨
    (a = .rstAssert ∧ s.status.busy = true ∧ inVector s.latch.ybase s.latch.n.toNat x = true) := by
  cases h with
  | @dmemWrite addr bytes _ =>
    by_cases hx : addr ≤ x ∧ x < addr + bytes.length
    · exact .inr (.inl ⟨addr, bytes, rfl, hx⟩)
    · exact .inl (readByte_writeBytes_of_outside _ _ _ _ (by omega))
  | rstAssert =>
    by_cases hx : s.status.busy = true ∧ inVector s.latch.ybase s.latch.n.toNat x = true
    · exact .inr (.inr ⟨rfl, hx⟩)
    · exact .inl (readByte_applyReset fun hb => Bool.eq_false_iff.2 fun hin => hx ⟨hb, hin⟩)
  | store => exact .inl (by rw [writeReg_mem])
  | command _ _ _ run => exact .inl (by rw [(exec_kept run).mem])
  | read | dropped | illegal | dmemRead | rstRelease => exact .inl rfl

/-- What a run keeps of its record (R113), its acceptance and its progress (R42). -/
theorem HostEffect.run {a : HostAction} {s t : State} (h : HostEffect s a t) (hb : s.status.busy = true)
    (hb' : t.status.busy = true) :
    t.latch = s.latch ∧ t.d0 = s.d0 ∧ s.idx ≤ t.idx ∧ (s.tainted = true → t.tainted = true) := by
  cases h with
  | store => exact ⟨writeReg_latch _ _ _, writeReg_d0 _ _ _, (writeReg_idx _ _ _).ge, fun ht => by rwa [writeReg_tainted]⟩
  | command _ idle _ _ => simp [idle] at hb
  | rstAssert => exact Bool.noConfusion hb'
  | dmemWrite => exact ⟨rfl, rfl, le_rfl, fun ht => by simp [afterDmemWrite, ht]⟩
  | read | dropped | illegal | dmemRead | rstRelease => exact ⟨rfl, rfl, le_rfl, id⟩

/-! ### The obligations, by the sequencer's turn and the host's action -/

theorem sequencerTurn_idx_le {s t : State} (h : sequencerTurn s = .next t) : s.idx ≤ t.idx := by
  rcases sequencerTurn_spec h with rfl | ⟨-, ht⟩
  · exact le_rfl
  · rw [ht]
    exact Nat.le_add_right _ _

/-- Settles O38. -/
theorem runningCommandKeepsOperands : Obligations.RunningCommandKeepsOperands := by
  intro s t h hb hb'
  rcases step_effect h with ⟨-, hs⟩ | ⟨a, rest, -, he⟩
  · have hk := sequencerTurn_kept hs
    exact ⟨hk.latch, hk.d0, sequencerTurn_idx_le (s := { s with inputs := s.inputs.tail }) hs, fun ht => hk.tainted.trans ht⟩
  · exact he.run hb hb'

/-- Settles O47. -/
theorem operandsChangeOnlyByHost : Obligations.OperandsChangeOnlyByHost := by
  intro s t h hne
  rw [← not_and_or] at hne
  rcases step_effect h with ⟨-, hs⟩ | ⟨a, rest, hin, he⟩
  · exact absurd ⟨(sequencerTurn_kept hs).regs, (sequencerTurn_kept hs).ie⟩ hne
  · rcases he.operands with hsame | ⟨off, v, rfl, hoff⟩ | rfl
    · exact absurd hsame hne
    · exact .inl ⟨off, v, rest, hin, hoff⟩
    · exact .inr ⟨rest, hin⟩

/-- Settles O48. -/
theorem resultChangesOnlyBySatAxpy1 : Obligations.ResultChangesOnlyBySatAxpy1 := by
  intro s t h hne
  rcases step_effect h with ⟨-, hs⟩ | ⟨a, rest, hin, he⟩
  · exact absurd (sequencerTurn_kept hs).result hne
  · rcases he.result with hsame | ⟨w, rfl, hw⟩ | rfl
    · exact absurd hsame hne
    · exact .inl ⟨w, rest, hin, hw⟩
    · exact .inr ⟨rest, hin⟩

/-- Only a running command's sequencer changes a byte, and only in `y` (20_memory.md R61). -/
theorem sequencerTurn_changes_byte {s t : State} {x : Nat} (hi : GoodState s) (h : sequencerTurn s = .next t)
    (hne : readByte t.mem x ≠ readByte s.mem x) :
    s.status.busy = true ∧ inVector s.latch.ybase s.latch.n.toNat x = true := by
  constructor
  · refine Bool.eq_true_of_not_eq_false fun hb => hne ?_
    rw [sequencerTurn_idle hb] at h
    rw [Host.Outcome.next.inj h]
  · exact Bool.eq_true_of_not_eq_false fun hx => hne (readByte_sequencerTurn hi h hx)

/-- Settles O54. -/
theorem memoryChangesOnlyByWriters : Obligations.MemoryChangesOnlyByWriters := by
  intro s t x hi h hne
  rcases step_effect h with ⟨hn, hs⟩ | ⟨a, rest, hin, he⟩
  · obtain ⟨hb, hx⟩ := sequencerTurn_changes_byte hi.unread hs hne
    exact .inr ⟨hb, hx, .inl hn⟩
  · rcases he.readByte x with hsame | ⟨addr, bytes, rfl, hx⟩ | ⟨rfl, hb, hx⟩
    · exact absurd hsame hne
    · exact .inl ⟨addr, bytes, rest, hin, hx⟩
    · exact .inr ⟨hb, hx, .inr ⟨rest, hin⟩⟩

/-- The level of `rst` changes with the host's two actions on it only (70_reset_and_hazards.md R200, log 4). -/
theorem step_rstHeld {s t : State} (h : step s = .next t) : t.rstHeld = s.rstHeld ∨ (resets s ∧ t.rstHeld = true) ∨
    ((∃ rest, s.inputs = .host .rstRelease :: rest) ∧ t.rstHeld = false) := by
  rcases step_effect h with ⟨-, hs⟩ | ⟨a, rest, hin, he⟩
  · exact .inl (sequencerTurn_kept hs).rstHeld
  · rcases he.rstHeld with hsame | ⟨rfl, ht⟩ | ⟨rfl, ht⟩
    · exact .inl hsame
    · exact .inr (.inl ⟨⟨rest, hin⟩, ht⟩)
    · exact .inr (.inr ⟨⟨rest, hin⟩, ht⟩)

/-- Settles O57: the release, the refusals, and who changes the level. -/
theorem resetHoldAndRelease : Obligations.ResetHoldAndRelease := by
  refine ⟨fun s rest h => step_of_host h, fun s rest a hr h hassert hrelease => ?_, fun s t h hr hr' => ?_,
    fun s t h hr hr' => ?_⟩
  · rw [step_of_host h, hostTurn_held (s := { s with inputs := rest }) hr]
    cases a with
    | rstAssert => exact absurd rfl hassert
    | rstRelease => exact absurd rfl hrelease
    | regRead | regWrite | dmemRead | dmemWrite => rfl
  · rcases step_rstHeld h with hsame | ⟨-, ht⟩ | ⟨hrel, -⟩
    · simp [hsame, hr] at hr'
    · simp [ht] at hr'
    · exact hrel
  · rcases step_rstHeld h with hsame | ⟨hres, -⟩ | ⟨-, ht⟩
    · simp [hsame, hr] at hr'
    · exact hres
    · simp [ht] at hr'

/-! ### Who can raise each flag -/

/-- A word that starts a command from idle is one of the two vector commands. -/
theorem Status.AcceptedAs.busy_rises {w : Word} {st st' : Status} (h : st.AcceptedAs w st') (h0 : st.busy = false)
    (h1 : st'.busy = true) : w = encode .axpyB ∨ w = encode .axpyV := by
  obtain ⟨c, rfl⟩ | rfl | ⟨op, hd, -⟩ := h
  · simp [Status.rejected, h0] at h1
  · simp [Status.completed, h0] at h1
  · rw [decode_ok_iff] at hd
    exact op.instr_vector.imp (fun h => by rw [hd, h]) (fun h => by rw [hd, h])

theorem StatusStep.busy_rises {s t : State} (h : StatusStep s t) (h0 : s.status.busy = false)
    (h1 : t.status.busy = true) :
    ∃ w rest, s.inputs = cmdSlot w :: rest ∧ (w = encode .axpyB ∨ w = encode .axpyV) := by
  cases h with
  | accepted w rest turn _ status => exact ⟨w, rest, turn, status.busy_rises h0 h1⟩
  | kept status | finished _ _ _ status | acknowledged _ _ _ status | dropped _ _ _ _ status | reset _ status =>
    simp [status, statusClear, Status.dropped, Status.reset, h0] at h1

theorem StatusStep.done_rises {s t : State} (h : StatusStep s t) (h0 : s.status.done = false)
    (h1 : t.status.done = true) : (∃ w rest, s.inputs = cmdSlot w :: rest ∧ s.status.busy = false) ∨
      (sequencerNext s = true ∧ s.status.busy = true ∧ t.status.busy = false) := by
  cases h with
  | accepted w rest turn idle _ => exact .inl ⟨w, rest, turn, idle⟩
  | finished turn running _ status => exact .inr ⟨turn, running, by rw [status]⟩
  | kept status | acknowledged _ _ _ status | dropped _ _ _ _ status | reset _ status =>
    simp [status, statusClear, Status.dropped, Status.reset, h0] at h1

theorem StatusStep.err_rises {s t : State} (h : StatusStep s t) (h0 : s.status.err = false)
    (h1 : t.status.err = true) : ∃ w rest, s.inputs = cmdSlot w :: rest ∧ s.status.busy = false := by
  cases h with
  | accepted w rest turn idle _ => exact ⟨w, rest, turn, idle⟩
  | kept status | finished _ _ _ status | acknowledged _ _ _ status | dropped _ _ _ _ status | reset _ status =>
    simp [status, statusClear, Status.dropped, Status.reset, h0] at h1

theorem StatusStep.ecause_rises {s t : State} (h : StatusStep s t) (hne : t.status.ecause ≠ s.status.ecause)
    (h1 : t.status.ecause ≠ 0) : ∃ w rest, s.inputs = cmdSlot w :: rest ∧ s.status.busy = false := by
  cases h with
  | accepted w rest turn idle _ => exact ⟨w, rest, turn, idle⟩
  | kept status | finished _ _ _ status | dropped _ _ _ _ status => exact absurd (congrArg Status.ecause status) hne
  | reset _ status => exact absurd (by rw [status]; rfl) h1
  | acknowledged v _ _ status =>
    rw [status, statusClear] at hne h1
    dsimp only at hne h1
    split_ifs at hne h1
    · exact absurd rfl h1
    · exact absurd rfl hne

theorem StatusStep.drop_rises {s t : State} (h : StatusStep s t) (h0 : s.status.drop = false)
    (h1 : t.status.drop = true) : ∃ w rest, s.inputs = cmdSlot w :: rest ∧ s.status.busy = true := by
  cases h with
  | dropped w rest turn running _ => exact ⟨w, rest, turn, running⟩
  | accepted _ _ _ _ status => simp [status.drop_eq, h0] at h1
  | kept status | finished _ _ _ status | acknowledged _ _ _ status | reset _ status =>
    simp [status, statusClear, Status.reset, h0] at h1

/-- Settles O46, flag by flag. -/
theorem flagsRiseOnlyBySetters : Obligations.FlagsRiseOnlyBySetters := fun _ _ h =>
  have hst := step_statusStep h
  ⟨hst.busy_rises, hst.done_rises, hst.err_rises, hst.ecause_rises, hst.drop_rises⟩

end Sys2Proof.Machine
end

section
/-! PROOFS. The platform address `REG_BASE` (00_scope.md R7): every operation of the model commutes with changing it. -/

namespace Sys2Proof.Machine

/-! ### Acceptance -/

theorem present_withRegBase (b : Nat) {body : State → State}
    (h : ∀ t, body (t.withRegBase b) = (body t).withRegBase b) (s : State) :
    present body (s.withRegBase b) = mapNext (State.withRegBase b) (present body s) := by
  rcases Bool.eq_false_or_eq_true s.status.busy with hb | hb
  · rw [present_busy hb, present_busy (s := s.withRegBase b) hb]; rfl
  · rw [present_idle hb, present_idle (s := s.withRegBase b) hb]
    exact congrArg _ (h (clearForAcceptance s))

theorem startVector_withRegBase (b : Nat) (s : State) :
    startVector (s.withRegBase b) = (startVector s).withRegBase b := by
  rw [startVector, startVector, apply_ite (State.withRegBase b)]; rfl

/-- The vector commands' part of acceptance, as a choice on what validation finds (40_command_flow.md R112). -/
theorem acceptVector_eq_elim (op : VecOp) (s : State) :
    acceptVector op s = (operandCause s).elim (startVector (latchOperands op s)) (reject · s) := by
  unfold acceptVector operandCause
  split <;> rename_i hv <;> rw [hv] <;> rfl

theorem acceptVector_withRegBase (b : Nat) (op : VecOp) (s : State) :
    acceptVector op (s.withRegBase b) = (acceptVector op s).withRegBase b := by
  have hcause : operandCause (s.withRegBase b) = operandCause s := rfl
  rw [acceptVector_eq_elim, acceptVector_eq_elim, hcause]
  cases operandCause s with
  | none => exact startVector_withRegBase b (latchOperands op s)
  | some c => rfl

theorem exec_withRegBase (b : Nat) (i : Instr) (s : State) :
    exec i (s.withRegBase b) = mapNext (State.withRegBase b) (exec i s) := by
  cases i with
  | nop => exact present_withRegBase b (body := setDone) (fun _ => rfl) s
  | sat => simp only [exec, execSat]; exact present_withRegBase b (by intro _; rfl) s
  | axpy1 => simp only [exec, execAxpy1]; exact present_withRegBase b (by intro _; rfl) s
  | axpyB | axpyV => exact present_withRegBase b (acceptVector_withRegBase b _) s

/-! ### The sequencer -/

theorem finishStep_withRegBase (b : Nat) (s : State) :
    finishStep (s.withRegBase b) = (finishStep s).withRegBase b := by
  have h : settleBroken (s.withRegBase b) = (settleBroken s).withRegBase b := by
    rw [settleBroken, settleBroken, apply_ite (State.withRegBase b)]; rfl
  have hcomplete : completeVector (s.withRegBase b) = (completeVector s).withRegBase b := by
    rw [completeVector, completeVector, h]; rfl
  rw [finishStep, finishStep, apply_ite (State.withRegBase b), hcomplete]; rfl

theorem sequencerTurn_withRegBase (b : Nat) (s : State) :
    sequencerTurn (s.withRegBase b) = mapNext (State.withRegBase b) (sequencerTurn s) := by
  rcases Bool.eq_false_or_eq_true s.rstHeld with hr | hr
  · rw [sequencerTurn_held hr, sequencerTurn_held (s := s.withRegBase b) hr]; rfl
  · rcases Bool.eq_false_or_eq_true s.status.busy with hb | hb
    · rw [sequencerTurn_running hb hr, sequencerTurn_running (s := s.withRegBase b) hb hr,
        apply_ite (mapNext (State.withRegBase b))]
      simp only [mapNext, ← finishStep_withRegBase]
      rfl
    · rw [sequencerTurn_idle hb, sequencerTurn_idle (s := s.withRegBase b) hb]; rfl

/-! ### The host -/

theorem readReg_withRegBase (b : Nat) (s : State) (r : Reg) : readReg (s.withRegBase b) r = readReg s r := by
  cases r <;> rfl

theorem writeReg_withRegBase (b : Nat) (v : Word) (s : State) (r : Reg) :
    writeReg v (s.withRegBase b) r = (writeReg v s r).withRegBase b := by cases r <;> rfl

theorem cmdWrite_withRegBase (b : Nat) (w : Word) (s : State) :
    cmdWrite w (s.withRegBase b) = mapNext (State.withRegBase b) (cmdWrite w s) := by
  rcases hd : decode w with e | i
  · rcases Bool.eq_false_or_eq_true s.status.busy with hb | hb
    · rw [cmdWrite_busy w hb, cmdWrite_busy w (s := s.withRegBase b) hb]; rfl
    · rw [cmdWrite_illegal hb hd, cmdWrite_illegal (s := s.withRegBase b) hb hd]; rfl
  · rw [cmdWrite_legal hd, cmdWrite_legal hd, exec_withRegBase]

theorem applyReset_withRegBase (b : Nat) (s : State) :
    applyReset (s.withRegBase b) = (applyReset s).withRegBase b := by
  have h : abandonRun (s.withRegBase b) = (abandonRun s).withRegBase b := by
    rw [abandonRun, abandonRun, apply_ite (State.withRegBase b)]; rfl
  rw [applyReset, applyReset, h]; rfl

section
variable {s : State} (hr : s.rstHeld = false) (b : Nat)
include hr

theorem hostRegRead_withRegBase (off width : Nat) :
    hostRegRead off width (s.withRegBase b) = mapNext (State.withRegBase b) (hostRegRead off width s) := by
  rcases hreg : regAt off width with _ | r
  · rw [hostRegRead_none hr hreg, hostRegRead_none (s := s.withRegBase b) hr hreg]; rfl
  · rw [hostRegRead_reg hr hreg, hostRegRead_reg (s := s.withRegBase b) hr hreg, readReg_withRegBase]; rfl

theorem hostRegWrite_withRegBase (off width : Nat) (v : Word) :
    hostRegWrite off width v (s.withRegBase b) = mapNext (State.withRegBase b) (hostRegWrite off width v s) := by
  rcases hreg : regAt off width with _ | r
  · rw [hostRegWrite_none v hr hreg, hostRegWrite_none (s := s.withRegBase b) v hr hreg]; rfl
  · by_cases hc : r = .cmd
    · subst hc
      obtain ⟨rfl, rfl⟩ := (regAt_cmd_iff _ _).1 hreg
      rw [hostRegWrite_cmd v hr, hostRegWrite_cmd (s := s.withRegBase b) v hr, cmdWrite_withRegBase]
    · rw [hostRegWrite_reg v hr hreg hc, hostRegWrite_reg (s := s.withRegBase b) v hr hreg hc,
        writeReg_withRegBase]
      rfl

theorem hostDmemRead_withRegBase (addr count : Nat) :
    hostDmemRead addr count (s.withRegBase b) = mapNext (State.withRegBase b) (hostDmemRead addr count s) := by
  by_cases hle : addr + count ≤ s.params.dmemSize
  · rw [hostDmemRead_of_le hr hle, hostDmemRead_of_le (s := s.withRegBase b) hr hle]; rfl
  · rw [hostDmemRead_absent hr hle, hostDmemRead_absent (s := s.withRegBase b) hr hle]; rfl

theorem hostDmemWrite_withRegBase (addr : Nat) (bytes : List Byte) :
    hostDmemWrite addr bytes (s.withRegBase b) = mapNext (State.withRegBase b) (hostDmemWrite addr bytes s) := by
  by_cases hle : addr + bytes.length ≤ s.params.dmemSize
  · rw [hostDmemWrite_of_le hr hle, hostDmemWrite_of_le (s := s.withRegBase b) hr hle]; rfl
  · rw [hostDmemWrite_absent hr hle, hostDmemWrite_absent (s := s.withRegBase b) hr hle]; rfl

end

theorem hostTurn_withRegBase (b : Nat) (a : HostAction) (s : State) :
    hostTurn a (s.withRegBase b) = mapNext (State.withRegBase b) (hostTurn a s) := by
  rcases Bool.eq_false_or_eq_true s.rstHeld with hr | hr
  · rw [hostTurn_held hr, hostTurn_held (s := s.withRegBase b) hr]
    cases a with
    | rstAssert => exact congrArg _ (applyReset_withRegBase b s)
    | regRead | regWrite | dmemRead | dmemWrite | rstRelease => rfl
  · cases a with
    | regRead off width => exact hostRegRead_withRegBase hr b off width
    | regWrite off width v => exact hostRegWrite_withRegBase hr b off width v
    | dmemRead addr count => exact hostDmemRead_withRegBase hr b addr count
    | dmemWrite addr bytes => exact hostDmemWrite_withRegBase hr b addr bytes
    | rstAssert => exact congrArg _ (applyReset_withRegBase b s)
    | rstRelease => rfl

theorem step_withRegBase (s : State) (b : Nat) :
    step (s.withRegBase b) = mapNext (State.withRegBase b) (step s) := by
  rcases step_cases s with ⟨hn, he⟩ | ⟨a, rest, hin, he⟩
  · rw [he, step_of_sequencerNext (s := s.withRegBase b) hn]
    exact sequencerTurn_withRegBase b { s with inputs := s.inputs.tail }
  · rw [he, step_of_host (s := s.withRegBase b) hin]
    exact hostTurn_withRegBase b a { s with inputs := rest }

/-- Settles O58: the commuting step, then the offset and the address of each other. -/
theorem regBaseOnlyPlaces : Obligations.RegBaseOnlyPlaces := by
  refine ⟨step_withRegBase, fun p addr off => ?_⟩
  rw [registerOffset, registerAddress]
  split_ifs with h
  · rw [Option.some.injEq]
    omega
  · exact ⟨nofun, fun h' => absurd ⟨by omega, by omega⟩ h⟩

end Sys2Proof.Machine
end
